-- ==== Sys2Proof/Word.lean ====
section
/-! DEFINITION. Word.lean: bytes, the two engines, and an engine's word (00_scope R6, R13). -/

namespace Sys2Proof

/-- A byte of a message, of BUF, of CIN or of DOUT. -/
abbrev Byte := BitVec 8

/-- The two compression engines of the CORE (R1): E32 and E64. -/
inductive Eng where
  | e32
  | e64
  deriving DecidableEq, Repr

/-- Parameter W of R6: the word width in bits. -/
@[reducible] def Eng.width : Eng → Nat
  | .e32 => 32
  | .e64 => 64

/-- Parameter N of R6: rounds, and words of the message schedule. -/
@[reducible] def Eng.rounds : Eng → Nat
  | .e32 => 64
  | .e64 => 80

/-- A word of engine `e`: an unsigned value of W bits (R13, R120). -/
abbrev Word (e : Eng) := BitVec e.width

end Sys2Proof
end

