-- ==== Sys2Proof/Syntax.lean ====
section
/-! DEFINITION. Syntax.lean: the six hash variants and the ten commands of HKC-1 (30_encoding R100). -/

namespace Sys2Proof

/-- The six variants of R2 and R220; R47 asks a model to use an enumeration and not a number. -/
inductive Variant where
  | sha224
  | sha256
  | sha384
  | sha512
  | sha512_224
  | sha512_256
  deriving DecidableEq, Repr

/-- The engine a variant runs on (R2, R220). -/
@[reducible] def Variant.eng : Variant → Eng
  | .sha224 | .sha256 => .e32
  | .sha384 | .sha512 | .sha512_224 | .sha512_256 => .e64

/-- The commands, one constructor per row of spec/opcode_table.json.
UPDATE carries its payload DATA; its operand LEN is the payload's length (R98). -/
inductive Instr where
  | initSha224
  | initSha256
  | initSha384
  | initSha512
  | initSha512_224
  | initSha512_256
  | updateE32 (data : List Byte)
  | updateE64 (data : List Byte)
  | completeE32
  | completeE64
  deriving DecidableEq, Repr

end Sys2Proof
end

