-- ==== Sys2Proof/WellFormed.lean ====
section
/-! DEFINITION. WellFormed.lean: which terms of Instr are commands. The one check is LEN: it is a 64-bit unsigned
number (30_encoding R98), so a payload has at most 2^64 - 1 bytes. -/

namespace Sys2Proof

/-- The payload's length fits the 64-bit operand LEN (R98). -/
def lenFits (data : List Byte) : Bool := decide (data.length < 2 ^ 64)

/-- A command that the command stream can carry. -/
def Instr.wellFormed : Instr → Bool
  | .initSha224 => true
  | .initSha256 => true
  | .initSha384 => true
  | .initSha512 => true
  | .initSha512_224 => true
  | .initSha512_256 => true
  | .updateE32 data => lenFits data
  | .updateE64 data => lenFits data
  | .completeE32 => true
  | .completeE64 => true

end Sys2Proof
end

