-- ==== Sys2Proof/Decode.lean ====
section
/-! DEFINITION. Decode.lean: the big-endian byte order (00_scope R15, 20_memory R64), the header byte and the two
formats (30_encoding R91, R92), the decoder (total, R104) and, after it, the encoder. -/

namespace Sys2Proof

/-! ### Byte order -/

/-- The unsigned number whose big-endian bytes are given (R15, R64). -/
def beNat (bytes : List Byte) : Nat :=
  bytes.foldl (fun acc b => acc * 256 + b.toNat) 0

/-- `BE_n(v)`: the n-byte big-endian rendering of v (R15). -/
def beBytes (n v : Nat) : List Byte :=
  (List.range n).map fun k => BitVec.ofNat 8 (v / 256 ^ (n - 1 - k))

/-! ### The header byte -/

/-- What a legal header byte says (R91): the operation with its engine or variant. -/
inductive Header where
  | init (v : Variant)
  | update (e : Eng)
  | complete (e : Eng)
  deriving DecidableEq, Repr

/-- The 3-bit variant code VAR (R29, R96, R220). -/
def variantCode : Variant → BitVec 3
  | .sha224 => 0b000#3
  | .sha256 => 0b001#3
  | .sha384 => 0b100#3
  | .sha512 => 0b101#3
  | .sha512_224 => 0b110#3
  | .sha512_256 => 0b111#3

/-- The variant of a code; `0b010` and `0b011` name none (R47, R102). -/
def variantOfCode (c : BitVec 3) : Option Variant :=
  if c = 0b000#3 then some .sha224
  else if c = 0b001#3 then some .sha256
  else if c = 0b100#3 then some .sha384
  else if c = 0b101#3 then some .sha512
  else if c = 0b110#3 then some .sha512_224
  else if c = 0b111#3 then some .sha512_256
  else none

/-- The engine select bit ENG: 0 is E32, 1 is E64 (R91, R97). -/
def engOfBit (b : Bool) : Eng := if b then .e64 else .e32

/-- The ENG bit of an engine (R91). -/
def engBit : Eng → BitVec 1
  | .e32 => 0#1
  | .e64 => 1#1

/-- Decode the header byte by its fields OPC, RSV, ENG and VS (R91, R96, R97); `none` is an illegal header (R102). -/
def decodeHeader (b : Byte) : Option Header :=
  let opc := b.extractLsb' 4 4
  let rsv := b.getLsbD 3
  let eng := engOfBit (b.getLsbD 2)
  let vs := b.extractLsb' 0 2
  if rsv then none
  else if opc = 1#4 then (variantOfCode (b.extractLsb' 0 3)).map Header.init
  else if opc = 2#4 then (if vs = 0#2 then some (.update eng) else none)
  else if opc = 3#4 then (if vs = 0#2 then some (.complete eng) else none)
  else none

/-! ### The command -/

/-- The INIT command of a variant (R222 to R227). -/
def initInstr : Variant → Instr
  | .sha224 => .initSha224
  | .sha256 => .initSha256
  | .sha384 => .initSha384
  | .sha512 => .initSha512
  | .sha512_224 => .initSha512_224
  | .sha512_256 => .initSha512_256

/-- The UPDATE command of an engine with its payload (R190, R191). -/
def updateInstr : Eng → List Byte → Instr
  | .e32, data => .updateE32 data
  | .e64, data => .updateE64 data

/-- The COMPLETE command of an engine (R206, R207). -/
def completeInstr : Eng → Instr
  | .e32 => .completeE32
  | .e64 => .completeE64

/-- What stands at the head of a byte stream: nothing yet, an illegal header, the beginning of an UPDATE whose
bytes have not all come (R107), or one whole command and the bytes after it. -/
inductive Decoded where
  | empty
  | illegal (header : Byte)
  | fragment (e : Eng)
  | command (i : Instr) (rest : List Byte)
  deriving DecidableEq, Repr

/-- Decode the operands of an UPDATE from the bytes after its header: LEN, then LEN payload bytes (R92, R98). -/
def decodeUpdate (e : Eng) (bytes : List Byte) : Decoded :=
  let body := bytes.drop 8
  let len := beNat (bytes.take 8)
  if bytes.length < 8 then .fragment e
  else if body.length < len then .fragment e
  else .command (updateInstr e (body.take len)) (body.drop len)

/-- Decode the command at the head of a byte stream (R90, R104, R106). -/
def decode : List Byte → Decoded
  | [] => .empty
  | b :: bytes =>
    match decodeHeader b with
    | none => .illegal b
    | some (.init v) => .command (initInstr v) bytes
    | some (.update e) => decodeUpdate e bytes
    | some (.complete e) => .command (completeInstr e) bytes

/-- The longest instruction with no payload: header and LEN (R92). -/
def tableBytesMin : Nat := 9

/-- The bytes of an instruction numbered as the opcode table numbers its bits: byte i is bits 8i+7..8i; bits at and
above `nbits` are 0. -/
def tableBytes (nbits w : Nat) : List Byte :=
  (List.range (max tableBytesMin ((nbits + 7) / 8))).map fun i =>
    BitVec.ofNat 8 ((w % 2 ^ nbits) / 256 ^ i)

/-- The instruction the decoder reads from an opcode-table word; `none` where it refuses. -/
def decodeTableWord (nbits w : Nat) : Option Instr :=
  match decode (tableBytes nbits w) with
  | .command i _ => some i
  | _ => none

/-! ### The encoder -/

/-- What the header of a command says. -/
def instrHeader : Instr → Header
  | .initSha224 => .init .sha224
  | .initSha256 => .init .sha256
  | .initSha384 => .init .sha384
  | .initSha512 => .init .sha512
  | .initSha512_224 => .init .sha512_224
  | .initSha512_256 => .init .sha512_256
  | .updateE32 _ => .update .e32
  | .updateE64 _ => .update .e64
  | .completeE32 => .complete .e32
  | .completeE64 => .complete .e64

/-- The header byte `OPC, RSV = 0, ENG, VS` (R91); for INIT `ENG, VS` is the variant code. -/
def headerByte : Header → Byte
  | .init v => 1#4 ++ 0#1 ++ variantCode v
  | .update e => 2#4 ++ 0#1 ++ engBit e ++ 0#2
  | .complete e => 3#4 ++ 0#1 ++ engBit e ++ 0#2

/-- The bytes after the header: LEN and DATA for UPDATE, none for the others (R92). -/
def operandBytes : Instr → List Byte
  | .initSha224 => []
  | .initSha256 => []
  | .initSha384 => []
  | .initSha512 => []
  | .initSha512_224 => []
  | .initSha512_256 => []
  | .updateE32 data => beBytes 8 data.length ++ data
  | .updateE64 data => beBytes 8 data.length ++ data
  | .completeE32 => []
  | .completeE64 => []

/-- The bytes of a command on CIN (R92, R110). -/
def encode (i : Instr) : List Byte := headerByte (instrHeader i) :: operandBytes i

/-- A command's length in bytes: 1 for format C, 9 + LEN for format U (R106). -/
def instrSize : Instr → Nat
  | .initSha224 => 1
  | .initSha256 => 1
  | .initSha384 => 1
  | .initSha512 => 1
  | .initSha512_224 => 1
  | .initSha512_256 => 1
  | .updateE32 data => 9 + data.length
  | .updateE64 data => 9 + data.length
  | .completeE32 => 1
  | .completeE64 => 1

end Sys2Proof
end

