-- ==== Sys2Proof/Machine/Operands.lean ====
section
/-! DEFINITION. Machine/Operands.lean: the engine parameters (00_scope R6), the byte sources of TRANSFORM, the length
arithmetic of UPDATE and COMPLETE (42_streaming R188, R196, R197) and the variant table (43_facades R220). -/

namespace Sys2Proof.Machine

/-! ### Engine parameters (R6) -/

/-- WB, bytes per word. -/
def wordBytes : Eng → Nat
  | .e32 => 4
  | .e64 => 8

/-- B, the block size in bytes. -/
def blockSize : Eng → Nat
  | .e32 => 64
  | .e64 => 128

/-- LR, the bytes at the end of the last block kept for the length field (90_conflicts C1). -/
def lenRegion : Eng → Nat
  | .e32 => 8
  | .e64 => 16

/-- LW, the bytes of that region that carry the length. -/
def lenBytes : Nat := 8

/-- PADMAX = B - 1 - LR: the largest BUFLEN for which one final block suffices. -/
def padMax (e : Eng) : Nat := blockSize e - 1 - lenRegion e

/-- BUFSZ = 2B, the size of BUF in bytes. -/
def bufSize (e : Eng) : Nat := 2 * blockSize e

/-- SB = 8 WB, the serialised state size in bytes. -/
def stateBytes (e : Eng) : Nat := 8 * wordBytes e

/-! ### Byte sources -/

/-- `MemRead(S, a, n)` on a byte string S: the big-endian number of `S[a..a+n-1]` (R15). -/
def memRead (src : List Byte) (a n : Nat) : Nat := beNat ((src.drop a).take n)

/-! ### The length arithmetic of UPDATE, over the natural numbers (R188) -/

/-- `room = B - BUFLEN`. -/
def room (e : Eng) (bufLen : Nat) : Nat := blockSize e - bufLen

/-- `c = min(n, room)`: how many payload bytes the copy-in takes. -/
def copyIn (e : Eng) (bufLen n : Nat) : Nat := min n (room e bufLen)

/-- The test of the slow path: `BUFLEN + n` is not below B. -/
def fillsBlock (e : Eng) (bufLen n : Nat) : Bool := decide (blockSize e ≤ bufLen + n)

/-- `rem = n - c`. -/
def remaining (e : Eng) (bufLen n : Nat) : Nat := n - copyIn e bufLen n

/-- `q = rem / B`: the full blocks taken straight from the payload. -/
def directBlocks (e : Eng) (bufLen n : Nat) : Nat := remaining e bufLen n / blockSize e

/-- `r = rem % B`: the bytes left over for BUF. -/
def leftOver (e : Eng) (bufLen n : Nat) : Nat := remaining e bufLen n % blockSize e

/-! ### The length arithmetic of COMPLETE -/

/-- `L = ((TOTLEN + BUFLEN) * 8) mod 2^64` (R196). -/
def bitLength (totLen : BitVec 64) (bufLen : BitVec 8) : Nat :=
  ((totLen.toNat + bufLen.toNat) * 8) % 2 ^ 64

/-- `nb`: one or two final blocks (R197). -/
def finalBlocks (e : Eng) (bufLen : Nat) : Nat := if bufLen ≤ padMax e then 1 else 2

/-! ### The variant table (R220) -/

/-- DS, the digest size in bytes. -/
def digestSize : Variant → Nat
  | .sha224 => 28
  | .sha256 => 32
  | .sha384 => 48
  | .sha512 => 64
  | .sha512_224 => 28
  | .sha512_256 => 32

/-- The engine whose lifecycle a command depends on: UPDATE and COMPLETE name one, INIT passes always (R242). -/
def lifecycleEngine : Instr → Option Eng
  | .initSha224 => none
  | .initSha256 => none
  | .initSha384 => none
  | .initSha512 => none
  | .initSha512_224 => none
  | .initSha512_256 => none
  | .updateE32 _ => some .e32
  | .updateE64 _ => some .e64
  | .completeE32 => some .e32
  | .completeE64 => some .e64

end Sys2Proof.Machine
end

