-- ==== Sys2Proof/Config.lean ====
section
/-! DEFINITION. Config.lean: the free values. Each is an opaque constant: nothing evaluates it and no proof sees a
value of it. Every one stands for a register or bits that the spec calls unspecified (10_state R32, R38, 70_reset R296). -/

namespace Sys2Proof

/-- What the working variables V[0..7] hold between commands: any value (R22, R38; log 3). -/
opaque Config.freeV (e : Eng) : Nat → Vector (Word e) 8

/-- What the message schedule w[0..N-1] holds between commands: any value (R23, R38; log 3). -/
opaque Config.freeW (e : Eng) : Nat → Vector (Word e) e.rounds

/-- What the temporary t1 holds between commands: any value (R24, R38; log 3). -/
opaque Config.freeT1 (e : Eng) : Nat → Word e

/-- What the temporary t2 holds between commands: any value (R24, R38; log 3). -/
opaque Config.freeT2 (e : Eng) : Nat → Word e

/-- What the 7-bit round counter j holds between commands: any value (R25, R38; log 3). -/
opaque Config.freeJ (e : Eng) : Nat → BitVec 7

/-- What read number n of STATUS shows in an engine's VARIANT bits while that engine's PHASE is 0: any value, a free one for
each n (R32, U5; log 8). -/
opaque Config.freeStatusVariant (e : Eng) : Nat → BitVec 3

/-- What read number n of STATUS inside a command returns: any value, a free one for each n (R296, U8; log 9). -/
opaque Config.freeStatusWord : Nat → BitVec 16

end Sys2Proof
end

