-- ==== Sys2Proof/Machine/State.lean ====
section
/-! DEFINITION. Machine/State.lean: everything the spec gives the machine (10_state R20 to R33), the reasons a step
can stop, and the state after reset (R50). Plain data only. -/

namespace Sys2Proof.Machine

/-- The lifecycle state of a streaming context, register PHASE (R30). -/
inductive Phase where
  | uninit
  | empty
  | accumulating
  | finalized
  deriving DecidableEq, Repr

/-- What the register CAUSE holds (R31); its codes 4 to 7 never occur. -/
inductive Cause where
  | none
  | illegalCommand
  | notInitialised
  | finalizedReuse
  deriving DecidableEq, Repr

/-- A byte memory: the cells that differ from what an unlisted address reads as, addresses strictly rising. -/
abbrev Memory := List Host.Cell

/-- The transient datapath registers of one engine (R20, R22 to R25). -/
structure Datapath (e : Eng) where
  /-- V[0..7], the working variables a..h (R22). -/
  v : Vector (Word e) 8
  /-- w[0..N-1], the message schedule (R23). -/
  w : Vector (Word e) e.rounds
  /-- t1 (R24). -/
  t1 : Word e
  /-- t2 (R24). -/
  t2 : Word e
  /-- j, the 7-bit round counter (R25). -/
  j : BitVec 7
  deriving DecidableEq, Repr

/-- One engine's registers (R20, R21, R26 to R30), with the model's own counter of free values. -/
structure Context (e : Eng) where
  /-- H[0..7], the state accumulator (R21). -/
  h : Vector (Word e) 8
  /-- BUF[0..2B-1] (R26). Between commands the bytes at and above BUFLEN stay what earlier commands left there, where R38
  allows any value (DESIGN CHOICE, unsafe, log 15). -/
  buf : Memory
  /-- BUFLEN (R27). -/
  bufLen : BitVec 8
  /-- TOTLEN (R28). -/
  totLen : BitVec 64
  /-- PHASE (R30). -/
  phase : Phase
  /-- VARIANT (R29). -/
  variant : Variant
  /-- V, w, t1, t2, j. -/
  dp : Datapath e
  /-- The model's own: how many free values the engine's datapath registers have taken (log 3). -/
  freeCount : Nat
  deriving DecidableEq, Repr

/-- The CORE (R20), with the two streams at its edge (R33). -/
structure State where
  /-- The registers of E32. -/
  e32 : Context .e32
  /-- The registers of E64. -/
  e64 : Context .e64
  /-- FAULT (R31). -/
  fault : Bool
  /-- CAUSE (R31). -/
  cause : Cause
  /-- CIN: the bytes the host has sent that are not consumed, the next one first (R33; DESIGN CHOICE, unsafe, log 4). -/
  cin : List Byte
  /-- DOUT: every byte appended so far, in order (R33; DESIGN CHOICE, unsafe, log 4). -/
  dout : List Byte
  /-- How many of the last bytes of DOUT the host has still to take; while there are any the CORE waits (R296, U9). -/
  untaken : Nat
  /-- The host's side of DOUT, the model's own: the host takes digest bytes as they come (R296, R300; DESIGN CHOICE,
  unsafe, log 10). -/
  hostTakes : Bool
  deriving DecidableEq, Repr

/-- Why a step has no next state. None of these is the CORE's FAULT register: raising a fault (R246) is a next state. -/
inductive Fault where
  /-- Raised by the fetch when CIN ends inside an UPDATE that is legal to execute: the CORE waits for ever and no
  further step exists until the host sends bytes (R107, U9). Safe: the model stops where the hardware waits. -/
  | commandFragment
  /-- Raised by the fetch and between the commands of a run while digest bytes wait to be taken: the CORE waits for ever
  and no further step exists until the host takes them (R296, U9). Safe: the model stops where the hardware waits. -/
  | digestUntaken
  /-- Raised by UPDATE and COMPLETE when BUFLEN is not below B: they would address BUF outside its range, which R27
  and R62 say cannot happen. Safe: no run from reset reaches it, and the model stops. -/
  | bufLenOutOfRange
  deriving DecidableEq, Repr

/-- Why an instruction has no meaning here. -/
inductive Refusal where
  /-- Raised only by an arm of `exec` whose instruction has no meaning yet; no arm does. Safe: the model stops. -/
  | notModelled (mnemonic : String)
  deriving DecidableEq, Repr

/-- The datapath registers after reset; R50 gives no value (DESIGN CHOICE 0, unsafe, log 1). -/
def Datapath.reset (e : Eng) : Datapath e where
  v := Vector.replicate 8 0
  w := Vector.replicate e.rounds 0
  t1 := 0
  t2 := 0
  j := 0

/-- What VARIANT holds after reset: the lowest code R29 lets the engine's register hold (DESIGN CHOICE, unsafe, log 1). -/
def resetVariant : Eng → Variant
  | .e32 => .sha224
  | .e64 => .sha384

/-- One engine after reset: PHASE is Uninit (R50); every other value is a DESIGN CHOICE (unsafe, log 1, log 2). -/
def Context.reset (e : Eng) : Context e where
  h := Vector.replicate 8 0
  buf := []
  bufLen := 0
  totLen := 0
  phase := .uninit
  variant := resetVariant e
  dp := Datapath.reset e
  freeCount := 0

/-- The CORE after reset (R50, R280): both PHASE registers Uninit, FAULT 0, CAUSE 0; the streams are empty (log 4) and the host
takes digest bytes as they come (log 10). -/
def State.reset : State where
  e32 := Context.reset .e32
  e64 := Context.reset .e64
  fault := false
  cause := .none
  cin := []
  dout := []
  untaken := 0
  hostTakes := true

end Sys2Proof.Machine
end

