-- ==== Sys2Proof/Machine/Ops.lean ====
section
/-! DEFINITION. Machine/Ops.lean: the named operations over BUF and the registers, raising a fault (60_exceptions
R246) and, beside it, the only thing that clears one, the reset input (70_reset R280). -/

namespace Sys2Proof.Machine

/-! ### BUF (10_state R26, 20_memory R60, R67) -/

/-- What a byte that nothing has written reads as (DESIGN CHOICE, unsafe, log 2). -/
def unlisted : Byte := 0x00#8

/-- Read one byte. -/
def Memory.read : Memory → Nat → Byte
  | [], _ => unlisted
  | (k, v) :: m, a => if k = a then v else Memory.read m a

/-- A cell in front of a memory, unless the cell says what an unlisted address reads as anyway. -/
def Memory.put (a : Nat) (b : Byte) (m : Memory) : Memory :=
  if b = unlisted then m else (a, b) :: m

/-- Write one byte, keeping the canonical form. -/
def Memory.write : Memory → Nat → Byte → Memory
  | [], a, b => Memory.put a b []
  | (k, v) :: m, a, b =>
    if a < k then Memory.put a b ((k, v) :: m)
    else if a = k then Memory.put a b m
    else (k, v) :: Memory.write m a b

/-- The canonical form: addresses strictly rising, no cell equal to what an unlisted address reads as. -/
abbrev Memory.wf (m : Memory) : Prop :=
  m.Pairwise (fun x y => x.1 < y.1) ∧ ∀ c ∈ m, c.2 ≠ unlisted

/-- Every listed address lies below `n`. -/
abbrev Memory.within (n : Nat) (m : Memory) : Prop := ∀ c ∈ m, c.1 < n

/-- The n bytes from address a on. -/
def Memory.readBytes (m : Memory) : Nat → Nat → List Byte
  | _, 0 => []
  | a, n + 1 => m.read a :: m.readBytes (a + 1) n

/-- Write a byte string from address a on, lowest address first: copy-in and copy-rest of R67. -/
def Memory.writeBytes (m : Memory) : Nat → List Byte → Memory
  | _, [] => m
  | a, b :: bytes => (m.write a b).writeBytes (a + 1) bytes

/-- Zero fill of n bytes from address a on (R67). -/
def Memory.zeroFill (m : Memory) : Nat → Nat → Memory
  | _, 0 => m
  | a, n + 1 => (m.write a 0x00#8).zeroFill (a + 1) n

/-- `MemWrite(BUF, a, n, v)`: the n-byte big-endian rendering of v (R15). -/
def Memory.memWrite (m : Memory) (a n v : Nat) : Memory := m.writeBytes a (beBytes n v)

/-! ### Registers: the addressed engine's context (10_state R21, R37) -/

/-- The context of an engine. -/
def State.ctx (s : State) : (e : Eng) → Context e
  | .e32 => s.e32
  | .e64 => s.e64

/-- Replace the context of one engine; nothing of the other engine changes (R37). -/
def State.setCtx (s : State) : (e : Eng) → Context e → State
  | .e32, c => { s with e32 := c }
  | .e64, c => { s with e64 := c }

/-- V, w, t1, t2 and j as they stand between commands: any value (R38; log 3). -/
def freeDatapath (e : Eng) (n : Nat) : Datapath e where
  v := Config.freeV e n
  w := Config.freeW e n
  t1 := Config.freeT1 e n
  t2 := Config.freeT2 e n
  j := Config.freeJ e n

/-- The end of a command that ran a TRANSFORM: the engine's transient registers become unspecified (R38; free values,
DESIGN CHOICE, log 3). The bytes of BUF at and above BUFLEN, which R38 names as well, keep what the command left there
(DESIGN CHOICE, unsafe, log 15). -/
def releaseDatapath {e : Eng} (c : Context e) : Context e :=
  { c with dp := freeDatapath e c.freeCount, freeCount := c.freeCount + 1 }

/-! ### The streams (10_state R33) -/

/-- CIN after some of its bytes have been consumed. -/
def State.withCin (s : State) (bytes : List Byte) : State := { s with cin := bytes }

/-- `DOUT <- bytes`: append to the digest-out stream (R15, R202). Where the host does not take bytes as they come, they
wait to be taken; nothing on DOUT is dropped or overwritten (R68, R296). -/
def State.emit (s : State) (bytes : List Byte) : State :=
  { s with
    dout := s.dout ++ bytes
    untaken := if s.hostTakes then s.untaken else s.untaken + bytes.length }

/-- The digest bytes that wait to be taken, the next one first (R296). -/
def State.untakenBytes (s : State) : List Byte := s.dout.drop (s.dout.length - s.untaken)

/-! ### Raising a fault, and reset -/

/-- `raise Fault(c)` (R246): FAULT and CAUSE are written and nothing else changes. -/
def State.raiseFault (s : State) (c : Cause) : State := { s with fault := true, cause := c }

/-- RST between commands (R280): the reset state of R50. It is the only way to clear FAULT (R248); there is no return
from a fault. The bytes on the two streams are the host's and stay (DESIGN CHOICE, unsafe, log 1, log 4), the CORE no
longer waits for any to be taken, how the host takes bytes is as before (log 10), and the counters of free values run on. -/
def State.assertRst (s : State) : State :=
  { State.reset with
    e32 := { Context.reset .e32 with freeCount := s.e32.freeCount }
    e64 := { Context.reset .e64 with freeCount := s.e64.freeCount }
    cin := s.cin
    dout := s.dout
    hostTakes := s.hostTakes }

end Sys2Proof.Machine
end

