-- ==== Sys2Proof/Machine/Flags.lean ====
section
/-! DEFINITION. Machine/Flags.lean: PHASE and the legality check (42_streaming R204, 60_exceptions R242), and the
STATUS word (10_state R32). The hardware has no arithmetic flag (40_primitives R120). -/

namespace Sys2Proof.Machine

/-- The 2-bit code of PHASE (R30). -/
def phaseCode : Phase → BitVec 2
  | .uninit => 0#2
  | .empty => 1#2
  | .accumulating => 2#2
  | .finalized => 3#2

/-- The 3-bit code of CAUSE (R31). -/
def causeCode : Cause → BitVec 3
  | .none => 0#3
  | .illegalCommand => 1#3
  | .notInitialised => 2#3
  | .finalizedReuse => 3#3

/-- What the legality check says of a command that is already decoded (R242). -/
inductive Verdict where
  | refuse
  | raise (c : Cause)
  | run
  deriving DecidableEq, Repr

/-- The fault that PHASE makes UPDATE and COMPLETE raise, if any (R241, R243, R204). -/
def phaseCause : Phase → Option Cause
  | .uninit => some .notInitialised
  | .empty => none
  | .accumulating => none
  | .finalized => some .finalizedReuse

/-- Steps (1), (3), (4), (5) of R242: FAULT first, then PHASE of the engine, for UPDATE and COMPLETE only. -/
def legality (target : Option Eng) (s : State) : Verdict :=
  if s.fault then .refuse
  else match target with
    | none => .run
    | some e =>
      match phaseCause (s.ctx e).phase with
      | some c => .raise c
      | none => .run

/-- PHASE after an UPDATE of n bytes that fills no block: Accumulating if n > 0, unchanged if n = 0 (R186, R192). -/
def phaseAfterUpdate (p : Phase) (n : Nat) : Phase := if 0 < n then .accumulating else p

/-- The VARIANT bits that read number n of STATUS shows for an engine. While its PHASE is 0 they are any value (R32, U5),
free for each n, so nothing says whether two reads agree, whatever happens between them (DESIGN CHOICE, safe while each
read has a number of its own, log 8). -/
def statusVariant (s : State) (e : Eng) (n : Nat) : BitVec 3 :=
  if (s.ctx e).phase = .uninit then Config.freeStatusVariant e n else variantCode (s.ctx e).variant

/-- The STATUS port between commands (R32), bit 15 first, as read number n shows it. While the CORE waits for bytes of an
UPDATE or for digest bytes to be taken, a host's read does not give this word but any value: `State.readStatus` (DESIGN
CHOICE, safe, log 9). -/
def State.status (s : State) (n : Nat) : BitVec 16 :=
  0#2 ++ causeCode s.cause ++ BitVec.ofBool s.fault ++ statusVariant s .e64 n ++ statusVariant s .e32 n
    ++ phaseCode s.e64.phase ++ phaseCode s.e32.phase

end Sys2Proof.Machine
end

