-- ==== Sys2Proof/Machine/Primitives.lean ====
section
/-! DEFINITION. Machine/Primitives.lean: the bitwise round primitives (40_primitives R121 to R134).
ADD, addition modulo 2^W (R121), is `+` on `BitVec`. -/

namespace Sys2Proof.Machine

/-- ROTR, circular right rotation (R122). The amount is taken modulo W, which agrees on every amount used (DEDUCED,
safe, log 11). -/
def rotr {w : Nat} (x : BitVec w) (n : Nat) : BitVec w :=
  (x >>> (n % w)) ||| (x <<< (w - n % w))

/-- SHR, logical right shift (R123). -/
def shr {w : Nat} (x : BitVec w) (n : Nat) : BitVec w := x >>> n

/-- CH, choose (R124). -/
def ch {w : Nat} (x y z : BitVec w) : BitVec w := (x &&& y) ^^^ (~~~x &&& z)

/-- MAJ, majority (R125). -/
def maj {w : Nat} (x y z : BitVec w) : BitVec w := (x &&& y) ^^^ (x &&& z) ^^^ (y &&& z)

/-- F1.32 (R126). -/
def f1E32 (x : BitVec 32) : BitVec 32 := rotr x 2 ^^^ rotr x 13 ^^^ rotr x 22

/-- F2.32 (R127). -/
def f2E32 (x : BitVec 32) : BitVec 32 := rotr x 6 ^^^ rotr x 11 ^^^ rotr x 25

/-- F3.32 (R128). -/
def f3E32 (x : BitVec 32) : BitVec 32 := rotr x 7 ^^^ rotr x 18 ^^^ shr x 3

/-- F4.32 (R129). -/
def f4E32 (x : BitVec 32) : BitVec 32 := rotr x 17 ^^^ rotr x 19 ^^^ shr x 10

/-- F1.64 (R130). -/
def f1E64 (x : BitVec 64) : BitVec 64 := rotr x 28 ^^^ rotr x 34 ^^^ rotr x 39

/-- F2.64 (R131). -/
def f2E64 (x : BitVec 64) : BitVec 64 := rotr x 14 ^^^ rotr x 18 ^^^ rotr x 41

/-- F3.64 (R132). -/
def f3E64 (x : BitVec 64) : BitVec 64 := rotr x 1 ^^^ rotr x 8 ^^^ shr x 7

/-- F4.64 (R133). -/
def f4E64 (x : BitVec 64) : BitVec 64 := rotr x 19 ^^^ rotr x 61 ^^^ shr x 6

/-- F1 of an engine (R134), used on `a` in the round. -/
def f1 : (e : Eng) → Word e → Word e
  | .e32 => f1E32
  | .e64 => f1E64

/-- F2 of an engine (R134), used on `e` in the round. -/
def f2 : (e : Eng) → Word e → Word e
  | .e32 => f2E32
  | .e64 => f2E64

/-- F3 of an engine (R134), used on `w[i-15]` in the schedule. -/
def f3 : (e : Eng) → Word e → Word e
  | .e32 => f3E32
  | .e64 => f3E64

/-- F4 of an engine (R134), used on `w[i-2]` in the schedule. -/
def f4 : (e : Eng) → Word e → Word e
  | .e32 => f4E32
  | .e64 => f4E64

end Sys2Proof.Machine
end

