-- ==== Sys2Proof/Machine/Rom.lean ====
section
/-! DEFINITION. Machine/Rom.lean: the round-constant ROMs (10_state R40, R41) and the initial-value ROM (R43 to R46),
read-only contents (R48). -/

namespace Sys2Proof.Machine

/-- Words 0 to 15 of the ROM of R40. -/
def k32Part0 : List (BitVec 32) := [
  0x428a2f98#32, 0x71374491#32, 0xb5c0fbcf#32, 0xe9b5dba5#32,
  0x3956c25b#32, 0x59f111f1#32, 0x923f82a4#32, 0xab1c5ed5#32,
  0xd807aa98#32, 0x12835b01#32, 0x243185be#32, 0x550c7dc3#32,
  0x72be5d74#32, 0x80deb1fe#32, 0x9bdc06a7#32, 0xc19bf174#32]

/-- Words 16 to 31 of the ROM of R40. -/
def k32Part1 : List (BitVec 32) := [
  0xe49b69c1#32, 0xefbe4786#32, 0x0fc19dc6#32, 0x240ca1cc#32,
  0x2de92c6f#32, 0x4a7484aa#32, 0x5cb0a9dc#32, 0x76f988da#32,
  0x983e5152#32, 0xa831c66d#32, 0xb00327c8#32, 0xbf597fc7#32,
  0xc6e00bf3#32, 0xd5a79147#32, 0x06ca6351#32, 0x14292967#32]

/-- Words 32 to 47 of the ROM of R40. -/
def k32Part2 : List (BitVec 32) := [
  0x27b70a85#32, 0x2e1b2138#32, 0x4d2c6dfc#32, 0x53380d13#32,
  0x650a7354#32, 0x766a0abb#32, 0x81c2c92e#32, 0x92722c85#32,
  0xa2bfe8a1#32, 0xa81a664b#32, 0xc24b8b70#32, 0xc76c51a3#32,
  0xd192e819#32, 0xd6990624#32, 0xf40e3585#32, 0x106aa070#32]

/-- Words 48 to 63 of the ROM of R40. -/
def k32Part3 : List (BitVec 32) := [
  0x19a4c116#32, 0x1e376c08#32, 0x2748774c#32, 0x34b0bcb5#32,
  0x391c0cb3#32, 0x4ed8aa4a#32, 0x5b9cca4f#32, 0x682e6ff3#32,
  0x748f82ee#32, 0x78a5636f#32, 0x84c87814#32, 0x8cc70208#32,
  0x90befffa#32, 0xa4506ceb#32, 0xbef9a3f7#32, 0xc67178f2#32]

/-- The K ROM of E32 (R40). -/
def k32Rom : List (BitVec 32) := k32Part0 ++ k32Part1 ++ k32Part2 ++ k32Part3

/-- Words 0 to 15 of the ROM of R41. -/
def k64Part0 : List (BitVec 64) := [
  0x428a2f98d728ae22#64, 0x7137449123ef65cd#64,
  0xb5c0fbcfec4d3b2f#64, 0xe9b5dba58189dbbc#64,
  0x3956c25bf348b538#64, 0x59f111f1b605d019#64,
  0x923f82a4af194f9b#64, 0xab1c5ed5da6d8118#64,
  0xd807aa98a3030242#64, 0x12835b0145706fbe#64,
  0x243185be4ee4b28c#64, 0x550c7dc3d5ffb4e2#64,
  0x72be5d74f27b896f#64, 0x80deb1fe3b1696b1#64,
  0x9bdc06a725c71235#64, 0xc19bf174cf692694#64]

/-- Words 16 to 31 of the ROM of R41. -/
def k64Part1 : List (BitVec 64) := [
  0xe49b69c19ef14ad2#64, 0xefbe4786384f25e3#64,
  0x0fc19dc68b8cd5b5#64, 0x240ca1cc77ac9c65#64,
  0x2de92c6f592b0275#64, 0x4a7484aa6ea6e483#64,
  0x5cb0a9dcbd41fbd4#64, 0x76f988da831153b5#64,
  0x983e5152ee66dfab#64, 0xa831c66d2db43210#64,
  0xb00327c898fb213f#64, 0xbf597fc7beef0ee4#64,
  0xc6e00bf33da88fc2#64, 0xd5a79147930aa725#64,
  0x06ca6351e003826f#64, 0x142929670a0e6e70#64]

/-- Words 32 to 47 of the ROM of R41. -/
def k64Part2 : List (BitVec 64) := [
  0x27b70a8546d22ffc#64, 0x2e1b21385c26c926#64,
  0x4d2c6dfc5ac42aed#64, 0x53380d139d95b3df#64,
  0x650a73548baf63de#64, 0x766a0abb3c77b2a8#64,
  0x81c2c92e47edaee6#64, 0x92722c851482353b#64,
  0xa2bfe8a14cf10364#64, 0xa81a664bbc423001#64,
  0xc24b8b70d0f89791#64, 0xc76c51a30654be30#64,
  0xd192e819d6ef5218#64, 0xd69906245565a910#64,
  0xf40e35855771202a#64, 0x106aa07032bbd1b8#64]

/-- Words 48 to 63 of the ROM of R41. -/
def k64Part3 : List (BitVec 64) := [
  0x19a4c116b8d2d0c8#64, 0x1e376c085141ab53#64,
  0x2748774cdf8eeb99#64, 0x34b0bcb5e19b48a8#64,
  0x391c0cb3c5c95a63#64, 0x4ed8aa4ae3418acb#64,
  0x5b9cca4f7763e373#64, 0x682e6ff3d6b2b8a3#64,
  0x748f82ee5defb2fc#64, 0x78a5636f43172f60#64,
  0x84c87814a1f0ab72#64, 0x8cc702081a6439ec#64,
  0x90befffa23631e28#64, 0xa4506cebde82bde9#64,
  0xbef9a3f7b2c67915#64, 0xc67178f2e372532b#64]

/-- Words 64 to 79 of the ROM of R41. -/
def k64Part4 : List (BitVec 64) := [
  0xca273eceea26619c#64, 0xd186b8c721c0c207#64,
  0xeada7dd6cde0eb1e#64, 0xf57d4f7fee6ed178#64,
  0x06f067aa72176fba#64, 0x0a637dc5a2c898a6#64,
  0x113f9804bef90dae#64, 0x1b710b35131c471b#64,
  0x28db77f523047d84#64, 0x32caab7b40c72493#64,
  0x3c9ebe0a15c9bebc#64, 0x431d67c49c100d4c#64,
  0x4cc5d4becb3e42b6#64, 0x597f299cfc657e2a#64,
  0x5fcb6fab3ad6faec#64, 0x6c44198c4a475817#64]

/-- The K ROM of E64 (R41). -/
def k64Rom : List (BitVec 64) := k64Part0 ++ k64Part1 ++ k64Part2 ++ k64Part3 ++ k64Part4

/-- The K ROM of an engine. -/
def kRom : (e : Eng) → List (Word e)
  | .e32 => k32Rom
  | .e64 => k64Rom

/-- `K[j]`, the round constant of round j (R14, R158). -/
def kWord (e : Eng) (j : Nat) : Word e := (kRom e).getD j 0

/-- The IV row of SHA-224 (R44). -/
def ivSha224 : Vector (BitVec 32) 8 := #v[
    0xc1059ed8#32, 0x367cd507#32, 0x3070dd17#32, 0xf70e5939#32,
    0xffc00b31#32, 0x68581511#32, 0x64f98fa7#32, 0xbefa4fa4#32]

/-- The IV row of SHA-256 (R44). -/
def ivSha256 : Vector (BitVec 32) 8 := #v[
    0x6a09e667#32, 0xbb67ae85#32, 0x3c6ef372#32, 0xa54ff53a#32,
    0x510e527f#32, 0x9b05688c#32, 0x1f83d9ab#32, 0x5be0cd19#32]

/-- The IV row of SHA-384 (R45). -/
def ivSha384 : Vector (BitVec 64) 8 := #v[
    0xcbbb9d5dc1059ed8#64, 0x629a292a367cd507#64,
    0x9159015a3070dd17#64, 0x152fecd8f70e5939#64,
    0x67332667ffc00b31#64, 0x8eb44a8768581511#64,
    0xdb0c2e0d64f98fa7#64, 0x47b5481dbefa4fa4#64]

/-- The IV row of SHA-512 (R45). -/
def ivSha512 : Vector (BitVec 64) 8 := #v[
    0x6a09e667f3bcc908#64, 0xbb67ae8584caa73b#64,
    0x3c6ef372fe94f82b#64, 0xa54ff53a5f1d36f1#64,
    0x510e527fade682d1#64, 0x9b05688c2b3e6c1f#64,
    0x1f83d9abfb41bd6b#64, 0x5be0cd19137e2179#64]

/-- The IV row of SHA-512/224 (R46). -/
def ivSha512_224 : Vector (BitVec 64) 8 := #v[
    0x8c3d37c819544da2#64, 0x73e1996689dcd4d6#64,
    0x1dfab7ae32ff9c82#64, 0x679dd514582f9fcf#64,
    0x0f6d2b697bd44da8#64, 0x77e36f7304c48942#64,
    0x3f9d85a86a1d36c8#64, 0x1112e6ad91d692a1#64]

/-- The IV row of SHA-512/256 (R46). -/
def ivSha512_256 : Vector (BitVec 64) 8 := #v[
    0x22312194fc2bf72c#64, 0x9f555fa3c84c64c2#64,
    0x2393b86b6f53b151#64, 0x963877195940eabd#64,
    0x96283ee2a88effe3#64, 0xbe5e1e2553863992#64,
    0x2b0199fc2c85b8aa#64, 0x0eb72ddc81c52ca2#64]

/-- `IV[v]`, the row INIT loads into H (R43, R47). -/
def ivRow : (v : Variant) → Vector (Word v.eng) 8
  | .sha224 => ivSha224
  | .sha256 => ivSha256
  | .sha384 => ivSha384
  | .sha512 => ivSha512
  | .sha512_224 => ivSha512_224
  | .sha512_256 => ivSha512_256

end Sys2Proof.Machine
end

