-- ==== Sys2Proof/Machine/Transform.lean ====
section
/-! DEFINITION. Machine/Transform.lean: the block transform and its five steps (41_transform R150 to R168), and the
unrolled form of the rounds (R159). One text for both engines, read with two parameter sets (R168). -/

namespace Sys2Proof.Machine

/-- Read schedule word `w[i]`. -/
def wRead {e : Eng} (w : Vector (Word e) e.rounds) (i : Nat) : Word e := w[i]?.getD 0

/-- UNPACK, step 1: `w[i] <- MemRead(S, o + WB*i, WB)` for i = 0..15 (R152). -/
def unpack {e : Eng} (src : List Byte) (o : Nat) (d : Datapath e) : Datapath e :=
  { d with
    w := (List.range 16).foldl (fun w i =>
      w.setIfInBounds i (BitVec.ofNat e.width (memRead src (o + wordBytes e * i) (wordBytes e)))) d.w }

/-- The word EXPAND writes at index i (R154). -/
def expandWord {e : Eng} (w : Vector (Word e) e.rounds) (i : Nat) : Word e :=
  f4 e (wRead w (i - 2)) + wRead w (i - 7) + f3 e (wRead w (i - 15)) + wRead w (i - 16)

/-- EXPAND, step 2: `w[i]` for i = 16..N-1 in increasing order (R154). -/
def expand {e : Eng} (d : Datapath e) : Datapath e :=
  { d with
    w := (List.range' 16 (e.rounds - 16)).foldl (fun w i => w.setIfInBounds i (expandWord w i)) d.w }

/-- LOADV, step 3: `V[i] <- H[i]` (R156). -/
def loadV {e : Eng} (h : Vector (Word e) 8) (d : Datapath e) : Datapath e := { d with v := h }

/-- The temporary t1 of a round, from the variables before it (R158). -/
def roundT1 {e : Eng} (v : Vector (Word e) 8) (k w : Word e) : Word e :=
  v[7] + f2 e v[4] + ch v[4] v[5] v[6] + k + w

/-- The temporary t2 of a round, from the variables before it (R158). -/
def roundT2 {e : Eng} (v : Vector (Word e) 8) : Word e :=
  f1 e v[0] + maj v[0] v[1] v[2]

/-- The eight assignments of a round (R158). -/
def rotateV {e : Eng} (v : Vector (Word e) 8) (t1 t2 : Word e) : Vector (Word e) 8 :=
  #v[t1 + t2, v[0], v[1], v[2], v[3] + t1, v[4], v[5], v[6]]

/-- ROUND(j), step 4 (R158). -/
def roundAt {e : Eng} (j : Nat) (d : Datapath e) : Datapath e :=
  let t1 := roundT1 d.v (kWord e j) (wRead d.w j)
  let t2 := roundT2 d.v
  { d with v := rotateV d.v t1 t2, t1 := t1, t2 := t2, j := BitVec.ofNat 7 j }

/-- ROUND for j = 0, 1, ..., N-1 in that order (R158). -/
def rounds {e : Eng} (d : Datapath e) : Datapath e :=
  (List.range e.rounds).foldl (fun d j => roundAt j d) d

/-- ACCUMULATE, step 5: `H[i] <- H[i] +_W V[i]` (R160). -/
def accumulate {e : Eng} (h v : Vector (Word e) 8) : Vector (Word e) 8 :=
  #v[h[0] + v[0], h[1] + v[1], h[2] + v[2], h[3] + v[3],
     h[4] + v[4], h[5] + v[5], h[6] + v[6], h[7] + v[7]]

/-- Steps 1 to 4 on the block at offset o of S: what the datapath registers hold before ACCUMULATE (R162). -/
def runDatapath {e : Eng} (src : List Byte) (o : Nat) (h : Vector (Word e) 8) (d : Datapath e) : Datapath e :=
  rounds (loadV h (expand (unpack src o d)))

/-- One block of TRANSFORM: the five steps in order (R150, R162). Only H and the transient registers are written. -/
def transformBlock {e : Eng} (src : List Byte) (o : Nat) (c : Context e) : Context e :=
  let d := runDatapath src o c.h c.dp
  { c with h := accumulate c.h d.v, dp := d }

/-- `TRANSFORM(S, base, count)`: the blocks in increasing offset (R162). -/
def transform {e : Eng} (src : List Byte) : Nat → Nat → Context e → Context e
  | _, 0, c => c
  | base, count + 1, c => transform src (base + blockSize e) count (transformBlock src base c)

/-! ### The unrolled form of the rounds (R159): the registers keep their places, the roles rotate -/

/-- The register that plays role i (0 for `a`, ..., 7 for `h`) in round j: every role moves one place down a round. -/
def roleIndex (j i : Nat) : Nat := (i + 7 * j) % 8

/-- The eight registers seen by their roles in round j. -/
def roles {e : Eng} (j : Nat) (r : Vector (Word e) 8) : Vector (Word e) 8 :=
  Vector.ofFn fun i : Fin 8 => r[roleIndex j i.val]?.getD 0

/-- One unrolled round: `d <- d +_W t1`, `h <- t1 +_W t2`, in the places of the roles of round j (R159). -/
def unrolledRound {e : Eng} (w : Vector (Word e) e.rounds) (r : Vector (Word e) 8) (j : Nat) : Vector (Word e) 8 :=
  let v := roles j r
  let t1 := roundT1 v (kWord e j) (wRead w j)
  let t2 := roundT2 v
  (r.setIfInBounds (roleIndex j 3) (v[3] + t1)).setIfInBounds (roleIndex j 7) (t1 + t2)

/-- All N rounds in the unrolled form (R159). -/
def unrolledRounds {e : Eng} (w : Vector (Word e) e.rounds) (r : Vector (Word e) 8) : Vector (Word e) 8 :=
  (List.range e.rounds).foldl (unrolledRound w) r

end Sys2Proof.Machine
end

