-- ==== Sys2Proof/Machine/Complete.lean ====
section
/-! DEFINITION. Machine/Complete.lean: COMPLETE.E32 and COMPLETE.E64: padding, the final transform, serialisation and
truncation (42_streaming R194 to R203, R206, R207; 43_facades R228). -/

namespace Sys2Proof.Machine

/-- `pm = nb * B`: where the padded message in BUF ends (R194). -/
def padEnd {e : Eng} (c : Context e) : Nat := finalBlocks e c.bufLen.toNat * blockSize e

/-- The padding writes, in order: zero fill, the marker 0x80, the 8 bytes of the bit length (R198). -/
def padBuf {e : Eng} (c : Context e) : Memory :=
  let bl := c.bufLen.toNat
  let pm := padEnd c
  let m1 := c.buf.zeroFill bl (pm - bl)
  let m2 := m1.write bl 0x80#8
  m2.memWrite (pm - lenBytes) lenBytes (bitLength c.totLen c.bufLen)

/-- The final transform over the one or two padded blocks (R199). -/
def finalTransform {e : Eng} (c : Context e) : Context e :=
  let buf := padBuf c
  transform (buf.readBytes 0 (padEnd c)) 0 (finalBlocks e c.bufLen.toNat) { c with buf := buf }

/-- The serialised state `BE_WB(H[0]) ++ ... ++ BE_WB(H[7])` (R200). -/
def serialize {e : Eng} (h : Vector (Word e) 8) : List Byte :=
  h.toList.flatMap fun x => beBytes (wordBytes e) x.toNat

/-- The digest: the leading DS bytes of the serialised state, DS being that of the latched variant (R202, R228). -/
def digestOf {e : Eng} (c : Context e) : List Byte := (serialize c.h).take (digestSize c.variant)

/-- COMPLETE on engine e once it is legal (R194): BUFLEN, TOTLEN and VARIANT are not written; BUF keeps the padded blocks
(R203 (g); that it keeps them until the next command: DESIGN CHOICE, unsafe, log 15). -/
def completeRun (e : Eng) (s : State) : State :=
  let c := finalTransform (s.ctx e)
  (s.setCtx e (releaseDatapath { c with phase := .finalized })).emit (digestOf c)

/-- COMPLETE on engine e with its legality check (R194, R242); BUFLEN as in UPDATE (log 5). -/
def completeCommand (e : Eng) (s : State) : Host.Outcome State Fault Refusal :=
  match legality (some e) s with
  | .refuse => .next s
  | .raise c => .next (s.raiseFault c)
  | .run =>
    if (s.ctx e).bufLen.toNat < blockSize e then .next (completeRun e s)
    else .fault .bufLenOutOfRange

/-- COMPLETE.E32 (R206). -/
def execCompleteE32 (s : State) : Host.Outcome State Fault Refusal := completeCommand .e32 s

/-- COMPLETE.E64 (R207). -/
def execCompleteE64 (s : State) : Host.Outcome State Fault Refusal := completeCommand .e64 s

end Sys2Proof.Machine
end

