-- ==== Sys2Proof/Machine/Init.lean ====
section
/-! DEFINITION. Machine/Init.lean: the six INIT commands (42_streaming R182, 43_facades R222 to R227). -/

namespace Sys2Proof.Machine

/-- The context INIT leaves (R182): the IV row, BUF cleared, both lengths 0, the variant latched, PHASE Empty. The
datapath registers are not written. -/
def initContext (v : Variant) (c : Context v.eng) : Context v.eng :=
  { c with
    h := ivRow v
    buf := c.buf.zeroFill 0 (bufSize v.eng)
    bufLen := 0
    totLen := 0
    variant := v
    phase := .empty }

/-- INIT(v) after the legality check: it is legal in every PHASE, and refused while FAULT is 1 (R182, R242). -/
def initCommand (v : Variant) (s : State) : Host.Outcome State Fault Refusal :=
  match legality none s with
  | .refuse => .next s
  | .raise c => .next (s.raiseFault c)
  | .run => .next (s.setCtx v.eng (initContext v (s.ctx v.eng)))

/-- INIT.SHA224 (R222). -/
def execInitSha224 (s : State) : Host.Outcome State Fault Refusal := initCommand .sha224 s

/-- INIT.SHA256 (R223). -/
def execInitSha256 (s : State) : Host.Outcome State Fault Refusal := initCommand .sha256 s

/-- INIT.SHA384 (R224). -/
def execInitSha384 (s : State) : Host.Outcome State Fault Refusal := initCommand .sha384 s

/-- INIT.SHA512 (R225). -/
def execInitSha512 (s : State) : Host.Outcome State Fault Refusal := initCommand .sha512 s

/-- INIT.SHA512_224 (R226). -/
def execInitSha512_224 (s : State) : Host.Outcome State Fault Refusal := initCommand .sha512_224 s

/-- INIT.SHA512_256 (R227). -/
def execInitSha512_256 (s : State) : Host.Outcome State Fault Refusal := initCommand .sha512_256 s

end Sys2Proof.Machine
end

