-- ==== Sys2Proof/Machine/Update.lean ====
section
/-! DEFINITION. Machine/Update.lean: UPDATE.E32 and UPDATE.E64 (42_streaming R184 to R192). -/

namespace Sys2Proof.Machine

/-- BUF after the copy-in of `c = min(n, room)` payload bytes at offset BUFLEN (R186). -/
def copyInBuf {e : Eng} (data : List Byte) (c : Context e) : Memory :=
  c.buf.writeBytes c.bufLen.toNat (data.take (copyIn e c.bufLen.toNat data.length))

/-- The early return of UPDATE: the buffer is not full, no transform (R186). The bytes of BUF past the copy-in stay for the
next command as they are (DESIGN CHOICE, unsafe, log 15). -/
def bufferData {e : Eng} (data : List Byte) (c : Context e) : Context e :=
  { c with
    buf := copyInBuf data c
    bufLen := BitVec.ofNat 8 (c.bufLen.toNat + data.length)
    phase := phaseAfterUpdate c.phase data.length }

/-- UPDATE when the buffer fills (R186): transform the block in BUF, then the full blocks of the payload straight from
it (20_memory R78), keep the rest in BUF. BUF then holds exactly what R186 writes (R78, D32); that the next command finds
the bytes at and above BUFLEN so, where R38, D16 and U4 say any value, is a DESIGN CHOICE (unsafe, log 15). -/
def absorbData {e : Eng} (data : List Byte) (c : Context e) : Context e :=
  let bl := c.bufLen.toNat
  let n := data.length
  let cnt := copyIn e bl n
  let q := directBlocks e bl n
  let r := leftOver e bl n
  let buf1 := copyInBuf data c
  let c1 := transform (buf1.readBytes 0 (blockSize e)) 0 1 { c with buf := buf1 }
  let c2 := transform data cnt q c1
  { c2 with
    buf := c2.buf.writeBytes 0 ((data.drop (cnt + q * blockSize e)).take r)
    bufLen := BitVec.ofNat 8 r
    totLen := BitVec.ofNat 64 (c.totLen.toNat + (q + 1) * blockSize e)
    phase := .accumulating }

/-- UPDATE(D) on engine e once it is legal (R186). -/
def updateRun (e : Eng) (data : List Byte) (s : State) : State :=
  let c := s.ctx e
  if fillsBlock e c.bufLen.toNat data.length then s.setCtx e (releaseDatapath (absorbData data c))
  else s.setCtx e (bufferData data c)

/-- UPDATE on engine e with its legality check (R184, R242). BUFLEN is below B in every state a run reaches (R27,
R34); where it is not, BUF would be addressed outside its range and the model stops (DESIGN CHOICE, safe,
log 5). -/
def updateCommand (e : Eng) (data : List Byte) (s : State) : Host.Outcome State Fault Refusal :=
  match legality (some e) s with
  | .refuse => .next s
  | .raise c => .next (s.raiseFault c)
  | .run =>
    if (s.ctx e).bufLen.toNat < blockSize e then .next (updateRun e data s)
    else .fault .bufLenOutOfRange

/-- UPDATE.E32 (R190). -/
def execUpdateE32 (data : List Byte) (s : State) : Host.Outcome State Fault Refusal := updateCommand .e32 data s

/-- UPDATE.E64 (R191). -/
def execUpdateE64 (data : List Byte) (s : State) : Host.Outcome State Fault Refusal := updateCommand .e64 data s

end Sys2Proof.Machine
end

