-- ==== Sys2Proof/Machine/Dispatch.lean ====
section
/-! DEFINITION. Machine/Dispatch.lean: one arm per command; each arm is one direct call of its meaning. -/

namespace Sys2Proof.Machine

def exec (i : Instr) (s : State) : Host.Outcome State Fault Refusal :=
  match i with
  | .initSha224 => Sys2Proof.Machine.execInitSha224 s
  | .initSha256 => Sys2Proof.Machine.execInitSha256 s
  | .initSha384 => Sys2Proof.Machine.execInitSha384 s
  | .initSha512 => Sys2Proof.Machine.execInitSha512 s
  | .initSha512_224 => Sys2Proof.Machine.execInitSha512_224 s
  | .initSha512_256 => Sys2Proof.Machine.execInitSha512_256 s
  | .updateE32 data => Sys2Proof.Machine.execUpdateE32 data s
  | .updateE64 data => Sys2Proof.Machine.execUpdateE64 data s
  | .completeE32 => Sys2Proof.Machine.execCompleteE32 s
  | .completeE64 => Sys2Proof.Machine.execCompleteE64 s

end Sys2Proof.Machine
end

