-- ==== Sys2Proof/Machine/Fetch.lean ====
section
/-! DEFINITION. Machine/Fetch.lean: what the CORE does with the bytes at the head of CIN before a command executes
(30_encoding R90, R102, R107; 60_exceptions R242). -/

namespace Sys2Proof.Machine

/-- What the fetch says: stay as you are, go to a state in which a fault has been raised, stop, or run a command in
the state in which its bytes have been consumed. -/
inductive Fetched where
  | stay
  | raised (s : State)
  | stuck (r : Fault)
  | run (i : Instr) (s : State)
  deriving DecidableEq, Repr

/-- The state with the header byte, and nothing after it, consumed from CIN. -/
def State.afterHeader (s : State) : State := s.withCin s.cin.tail

/-- The state in which a decoded command runs. A command that will raise a fault consumes its header only (R102, R241,
90_conflicts C9); every other takes its whole encoding, `rest` being what follows it. -/
def State.consume (s : State) (i : Instr) (rest : List Byte) : State :=
  match legality (lifecycleEngine i) s with
  | .raise _ => s.afterHeader
  | _ => s.withCin rest

/-- An UPDATE of which CIN does not hold all bytes: its PHASE check comes before LEN is looked at (R241), so it may
raise a fault; else the CORE waits, with no further step (R107, U9; DESIGN CHOICE, safe, log 7). -/
def fetchFragment (e : Eng) (s : State) : Fetched :=
  match legality (some e) s with
  | .refuse => .stay
  | .raise c => .raised (s.afterHeader.raiseFault c)
  | .run => .stuck .commandFragment

/-- Steps (1) and (2) of R242. While digest bytes wait to be taken the CORE waits, whatever stands on CIN (R296, U9;
DESIGN CHOICE, safe, log 10). While FAULT is 1 CIN is not interpreted (R248; DEDUCED, safe, log 6). With CIN empty the
CORE is idle and keeps all its state (R272; DESIGN CHOICE, safe, log 7). -/
def fetch (s : State) : Fetched :=
  if s.fault then .stay
  else if 0 < s.untaken then .stuck .digestUntaken
  else match decode s.cin with
    | .empty => .stay
    | .illegal _ => .raised (s.afterHeader.raiseFault .illegalCommand)
    | .fragment e => fetchFragment e s
    | .command i rest => .run i (s.consume i rest)

/-- The CORE waits: for the missing bytes of an UPDATE that is legal to execute (R107), or for the host to take digest
bytes (R296). -/
def State.waiting (s : State) : Bool :=
  match fetch s with
  | .stay => false
  | .raised _ => false
  | .stuck _ => true
  | .run _ _ => false

/-- CIN holding exactly an opcode-table word, the bits at and above `nbits` zero, and no digest byte waiting to be taken
(DESIGN CHOICE, safe, log 13). -/
def State.placeWord (s : State) (nbits w : Nat) : State := { s.withCin (tableBytes nbits w) with untaken := 0 }

end Sys2Proof.Machine
end

