-- ==== Sys2Proof/Machine/Step.lean ====
section
/-! DEFINITION. Machine/Step.lean: one step is one command at the head of CIN, executed completely (20_memory R72). -/

namespace Sys2Proof.Machine

/-- One step of the CORE. -/
def step (s : State) : Host.Outcome State Fault Refusal :=
  match fetch s with
  | .stay => .next s
  | .raised t => .next t
  | .stuck r => .fault r
  | .run i t => exec i t

/-- `s` with an opcode-table word at the head of CIN, so that the next step runs it. -/
def State.withFetchWord (s : State) (nbits w : Nat) : State := s.placeWord nbits w

end Sys2Proof.Machine
end

