-- ==== Sys2Proof/Machine/HostPort.lean ====
section
/-! DEFINITION. Machine/HostPort.lean: the host's moves beside RST and STATUS between commands (70_reset R296), RST and
STATUS inside a command (R280, R296), the pseudo-instruction HASH (30_encoding R112, 43_facades R230) and the
assembler's data literals (R110). -/

namespace Sys2Proof.Machine

/-- The host sends bytes on CIN (R33, R296). They stand behind those that stand there already, and run in that order, also
if the host has not waited until the CORE has taken the previous command, which R296 asks of it (DESIGN CHOICE, unsafe,
log 16). -/
def State.hostSend (s : State) (bytes : List Byte) : State := { s with cin := s.cin ++ bytes }

/-- The host takes the next n of the digest bytes that wait: it gets them in order, and only bytes that are there
(R290 (d), (e), R296). DOUT keeps the record of what was appended. -/
def State.hostTake (s : State) (n : Nat) : Option (List Byte × State) :=
  if n ≤ s.untaken then some (s.untakenBytes.take n, { s with untaken := s.untaken - n }) else none

/-- The host begins to take digest bytes as they come, those that wait at once, or ceases to (R296; log 10). -/
def State.setHostTakes (s : State) (takes : Bool) : State :=
  { s with hostTakes := takes, untaken := if takes then 0 else s.untaken }

/-- RST asserted inside a command (R280, U7), the COMPLETE whose digest bytes wait to be taken or else the command at the
head of CIN: the command is abandoned, the CORE is in the reset state, and of what the command would have appended to
DOUT (only a COMPLETE appends) the first k bytes, or of what waits the first k bytes, are there. Nothing fixes k: a claim
covers such a reset by holding for every k (log 9). -/
def State.rstDuring (s : State) (k : Nat) : State :=
  if 0 < s.untaken then { s.assertRst with dout := s.dout.take (s.dout.length - s.untaken + k) }
  else match step s with
    | .next t => { t.assertRst with dout := s.dout ++ (t.dout.drop s.dout.length).take k }
    | .fault _ => s.assertRst
    | .refused _ => s.assertRst

/-- STATUS read while a command runs: any value (R296, U8). Read number n of such reads has a free value of its own, in
whatever state it is made, so nothing says whether two of them agree (DESIGN CHOICE, safe while each read has a number
of its own, log 9). -/
def statusDuring (n : Nat) : BitVec 16 := Config.freeStatusWord n

/-- Read number n of STATUS by the host (R32, R296). It gives the 16 bits of R32, unless the CORE waits for the missing
bytes of an UPDATE or for digest bytes to be taken. R300 and D22 put taking bytes from CIN and giving bytes to DOUT inside
the command, where U8 says any value; R107 says that such an UPDATE is not executed, and the step of such a COMPLETE is
over. The spec does not say which holds for a read: the model takes it to be inside, and any value (DESIGN CHOICE, safe,
log 9). -/
def State.readStatus (s : State) (n : Nat) : BitVec 16 := if s.waiting then statusDuring n else s.status n

/-- Execute a list of commands one after another, each completely (R72, R108, R298). While FAULT is 0 a command begins
only when no digest byte waits to be taken (R296; log 10). -/
def runCommands : List Instr → State → Host.Outcome State Fault Refusal
  | [], s => .next s
  | i :: is, s =>
    if s.fault = false ∧ 0 < s.untaken then .fault .digestUntaken
    else match exec i s with
      | .next t => runCommands is t
      | .fault r => .fault r
      | .refused r => .refused r

/-- The observable result of a run: what DOUT holds and the final STATUS, as read number n shows it (R298). -/
def State.result (s : State) (n : Nat) : List Byte × BitVec 16 := (s.dout, s.readStatus n)

/-- The expansion of the pseudo-instruction `HASH.<variant> <data>` (R112, R230). -/
def hashCommands (v : Variant) (data : List Byte) : List Instr :=
  [initInstr v, updateInstr v.eng data, completeInstr v.eng]

/-- The bytes of a list of commands on CIN: no padding between commands (R90). -/
def encodeAll (is : List Instr) : List Byte := is.flatMap encode

/-- The assembler's data literals (R110): hexadecimal pairs, ASCII text, repetition, concatenation; `""` is `ascii ""`. -/
inductive DataLit where
  | hex (bytes : List Byte)
  | ascii (text : String)
  | rep (n : Nat) (d : DataLit)
  | cat (d1 d2 : DataLit)
  deriving DecidableEq, Repr

/-- The byte string a data literal stands for (R110). -/
def dataBytes : DataLit → List Byte
  | .hex bytes => bytes
  | .ascii text => text.toList.map fun c => BitVec.ofNat 8 c.toNat
  | .rep n d => (List.replicate n (dataBytes d)).flatten
  | .cat d1 d2 => dataBytes d1 ++ dataBytes d2

/-- A command's mnemonic (R100, R110). -/
def mnemonic : Instr → String
  | .initSha224 => "INIT.SHA224"
  | .initSha256 => "INIT.SHA256"
  | .initSha384 => "INIT.SHA384"
  | .initSha512 => "INIT.SHA512"
  | .initSha512_224 => "INIT.SHA512_224"
  | .initSha512_256 => "INIT.SHA512_256"
  | .updateE32 _ => "UPDATE.E32"
  | .updateE64 _ => "UPDATE.E64"
  | .completeE32 => "COMPLETE.E32"
  | .completeE64 => "COMPLETE.E64"

end Sys2Proof.Machine
end

