-- ==== Sys2Proof/Machine/Reference.lean ====
section
/-! DEFINITION. Machine/Reference.lean: the hash as a function of the message alone, with no registers: the one-block
function of 41_transform R164, the padded message of 42_streaming R208 and the digest. The machine is claimed to
compute it. -/

namespace Sys2Proof.Machine

/-- The 16 words of a block (R152). -/
def blockWords (e : Eng) (block : List Byte) : List (Word e) :=
  (List.range 16).map fun i => BitVec.ofNat e.width (memRead block (wordBytes e * i) (wordBytes e))

/-- Append n more schedule words, each made of the words 2, 7, 15 and 16 places back (R154). -/
def extendSchedule (e : Eng) : Nat → List (Word e) → List (Word e)
  | 0, ws => ws
  | n + 1, ws =>
    let i := ws.length
    extendSchedule e n
      (ws ++ [f4 e (ws.getD (i - 2) 0) + ws.getD (i - 7) 0 + f3 e (ws.getD (i - 15) 0) + ws.getD (i - 16) 0])

/-- The message schedule of a block: N words (R152, R154). -/
def schedule (e : Eng) (block : List Byte) : List (Word e) :=
  extendSchedule e (e.rounds - 16) (blockWords e block)

/-- The rounds, taking one round constant and one schedule word each (R158). -/
def refRounds (e : Eng) : List (Word e) → List (Word e) → Vector (Word e) 8 → Vector (Word e) 8
  | k :: ks, w :: ws, v =>
    let t1 := v[7] + f2 e v[4] + ch v[4] v[5] v[6] + k + w
    let t2 := f1 e v[0] + maj v[0] v[1] v[2]
    refRounds e ks ws #v[t1 + t2, v[0], v[1], v[2], v[3] + t1, v[4], v[5], v[6]]
  | _, _, v => v

/-- `compress(H, block) -> H'` (R164). -/
def compress (e : Eng) (h : Vector (Word e) 8) (block : List Byte) : Vector (Word e) 8 :=
  accumulate h (refRounds e (kRom e) (schedule e block) h)

/-- H after n blocks from the front of a byte string, in order (R162). -/
def absorbBlocks (e : Eng) : Nat → Vector (Word e) 8 → List Byte → Vector (Word e) 8
  | 0, h, _ => h
  | n + 1, h, bytes => absorbBlocks e n (compress e h (bytes.take (blockSize e))) (bytes.drop (blockSize e))

/-- How many blocks a message of m bytes is padded to: the least that holds the message, the marker and LR bytes
(R197, R210). -/
def paddedBlocks (e : Eng) (m : Nat) : Nat := (m + 1 + lenRegion e + blockSize e - 1) / blockSize e

/-- The padded message `M ++ 0x80 ++ zeros ++ BE_8(L)`, L the bit length modulo 2^64 (R196, R198, R208). -/
def paddedMessage (e : Eng) (msg : List Byte) : List Byte :=
  msg ++ [0x80#8] ++ List.replicate (paddedBlocks e msg.length * blockSize e - msg.length - 9) 0x00#8
    ++ beBytes 8 (msg.length * 8 % 2 ^ 64)

/-- The digest of a message under a variant (R208, R220, R228). -/
def refDigest (v : Variant) (msg : List Byte) : List Byte :=
  (serialize (absorbBlocks v.eng (paddedBlocks v.eng msg.length) (ivRow v) (paddedMessage v.eng msg))).take
    (digestSize v)

end Sys2Proof.Machine
end

