-- ==== Sys2Proof/Safety.lean ====
section
/-! DEFINITION. Safety.lean: the terms claims use: the invariant of the CORE (10_state R27 to R31, R34), a good run
(70_reset R298), and what is and is not observable of a context (R38). -/

namespace Sys2Proof.Machine

/-- The other engine. -/
def otherEng : Eng → Eng
  | .e32 => .e64
  | .e64 => .e32

/-- What holds of an engine's registers between commands: BUF is in canonical form and inside its 2B bytes (R60), BUFLEN
is below B (R27), TOTLEN is a multiple of B (R28), VARIANT is one of the engine's variants (R29). -/
abbrev Context.Inv {e : Eng} (c : Context e) : Prop :=
  Memory.wf c.buf ∧ Memory.within (bufSize e) c.buf ∧ c.bufLen.toNat < blockSize e
    ∧ blockSize e ∣ c.totLen.toNat ∧ c.variant.eng = e

/-- What holds of the CORE between commands: both engines' registers, CAUSE is 0 exactly while FAULT is 0 (R31), and the
digest bytes that wait to be taken are bytes of DOUT, none while the host takes them as they come (R296). -/
abbrev State.Inv (s : State) : Prop :=
  s.e32.Inv ∧ s.e64.Inv ∧ (s.fault = false ↔ s.cause = .none)
    ∧ s.untaken ≤ s.dout.length ∧ (s.hostTakes = true → s.untaken = 0)

/-- The engine a command is addressed to (R37, R96, R97). -/
def addressedEngine : Instr → Eng
  | .initSha224 => .e32
  | .initSha256 => .e32
  | .initSha384 => .e64
  | .initSha512 => .e64
  | .initSha512_224 => .e64
  | .initSha512_256 => .e64
  | .updateE32 _ => .e32
  | .updateE64 _ => .e64
  | .completeE32 => .e32
  | .completeE64 => .e64

/-- UPDATE and COMPLETE are legal in this PHASE (R184, R194). -/
abbrev Phase.active (p : Phase) : Prop := p = .empty ∨ p = .accumulating

/-- Nothing but the context of engine e and DOUT, with what waits on it, differs: the frame of a command that executes
(R37). -/
abbrev FrameOutside (e : Eng) (s t : State) : Prop :=
  t.ctx (otherEng e) = s.ctx (otherEng e) ∧ t.fault = s.fault ∧ t.cause = s.cause ∧ t.cin = s.cin
    ∧ t.hostTakes = s.hostTakes

/-- The pending message bytes: BUF below BUFLEN, in arrival order (R26). -/
def pendingBytes {e : Eng} (c : Context e) : List Byte := c.buf.readBytes 0 c.bufLen.toNat

/-- R34 (a) to (d): the context of variant v's engine holds the message `msg`, the payloads of all UPDATEs since the last
INIT(v). -/
abbrev HoldsMessage (v : Variant) (c : Context v.eng) (msg : List Byte) : Prop :=
  c.bufLen.toNat < blockSize v.eng ∧ blockSize v.eng ∣ c.totLen.toNat
  ∧ (c.totLen.toNat + c.bufLen.toNat) % 2 ^ 64 = msg.length % 2 ^ 64
  ∧ pendingBytes c = msg.drop (msg.length - c.bufLen.toNat)
  ∧ c.h = absorbBlocks v.eng ((msg.length - c.bufLen.toNat) / blockSize v.eng) (ivRow v) msg
  ∧ c.bufLen.toNat = msg.length % blockSize v.eng
  ∧ c.variant = v ∧ c.phase = (if msg = [] then .empty else .accumulating)

/-- Two contexts that differ at most in hidden state: V, w, t1, t2, j, the bytes of BUF at and above BUFLEN (R38), and
the model's counter of free values. -/
abbrev SameVisible {e : Eng} (c d : Context e) : Prop :=
  c.h = d.h ∧ c.bufLen = d.bufLen ∧ c.totLen = d.totLen ∧ c.phase = d.phase ∧ c.variant = d.variant
    ∧ pendingBytes c = pendingBytes d

/-- Where a run ends (R298): every command has been executed or, after a fault, refused, and every digest byte has been
taken. -/
abbrev State.ended (s : State) : Prop := (s.cin = [] ∨ s.fault = true) ∧ s.untaken = 0

/-- A finished run: it has ended as R298 says and, as R248 says, not with FAULT = 1. R298 alone would call a run whose
last commands were refused finished; the model takes R248's reading (DESIGN CHOICE, safe, log 14). -/
abbrev State.finished (s : State) : Prop := s.ended ∧ s.fault = false

/-- A good run finishes with FAULT = 0 (R298); under either reading of "finished" these are the same states (log 14). -/
abbrev State.good (s : State) : Prop := s.finished ∧ s.fault = false

/-- The first 80 prime numbers, 2 to 409, from which the ROM contents are defined (R42, R49). -/
def firstPrimes : List Nat :=
  [2, 3, 5, 7, 11, 13, 17, 19, 23, 29, 31, 37, 41, 43, 47, 53, 59, 61, 67, 71] ++
  [73, 79, 83, 89, 97, 101, 103, 107, 109, 113, 127, 131, 137, 139, 149, 151, 157, 163, 167, 173] ++
  [179, 181, 191, 193, 197, 199, 211, 223, 227, 229, 233, 239, 241, 251, 257, 263, 269, 271, 277, 281] ++
  [283, 293, 307, 311, 313, 317, 331, 337, 347, 349, 353, 359, 367, 373, 379, 383, 389, 397, 401, 409]

/-- `r` is the integer part of the k-th root of `x`. -/
abbrev IsRoot (k x r : Nat) : Prop := r ^ k ≤ x ∧ x < (r + 1) ^ k

/-- The commands of one hash computation: INIT, one UPDATE per chunk, COMPLETE (R208). -/
def hashRun (v : Variant) (chunks : List (List Byte)) : List Instr :=
  initInstr v :: chunks.map (updateInstr v.eng) ++ [completeInstr v.eng]

end Sys2Proof.Machine
end

