-- ==== Sys2Proof/Certificates/Slice0/Obligations.lean ====
section
/-! DEFINITION. Certificates/Slice0/Obligations.lean: the statements for the provers. Each docstring names the rules of
spec/ it formalises. `updateInstr .e32`, `updateInstr .e64`, `completeInstr .e32`, `completeInstr .e64` and `initInstr v`
are the constructors of Instr for those commands. -/

open Sys2Proof Sys2Proof.Machine

/-! ### Encoding -/

/-- Decoding the bytes of a well-formed command gives it back, with the bytes after it (R92, R98, R104, R106). -/
def Obligations.DecodeOfEncode : Prop :=
  ∀ (i : Instr) (rest : List Byte), i.wellFormed = true → decode (encode i ++ rest) = .command i rest

/-- What decodes as a command is that command's encoding and nothing else, and is well formed (R98, R104). -/
def Obligations.EncodeOfDecode : Prop :=
  ∀ (bytes : List Byte) (i : Instr) (rest : List Byte), decode bytes = .command i rest →
    i.wellFormed = true ∧ encode i ++ rest = bytes

/-- The opcode map: ten legal header bytes with their meaning, and no other (R100). -/
def Obligations.TenLegalHeaders : Prop :=
  decodeHeader 0x10#8 = some (.init .sha224) ∧ decodeHeader 0x11#8 = some (.init .sha256)
  ∧ decodeHeader 0x14#8 = some (.init .sha384) ∧ decodeHeader 0x15#8 = some (.init .sha512)
  ∧ decodeHeader 0x16#8 = some (.init .sha512_224) ∧ decodeHeader 0x17#8 = some (.init .sha512_256)
  ∧ decodeHeader 0x20#8 = some (.update .e32) ∧ decodeHeader 0x24#8 = some (.update .e64)
  ∧ decodeHeader 0x30#8 = some (.complete .e32) ∧ decodeHeader 0x34#8 = some (.complete .e64)
  ∧ ∀ b : Byte, b ∉ [0x10#8, 0x11#8, 0x14#8, 0x15#8, 0x16#8, 0x17#8, 0x20#8, 0x24#8, 0x30#8, 0x34#8] →
      decodeHeader b = none

/-- The worked encodings of R114, each decoded and encoded, and its five illegal bytes. -/
def Obligations.WorkedEncodings : Prop :=
  encode .initSha256 = [0x11#8] ∧ decode [0x11#8] = .command .initSha256 []
  ∧ encode (.updateE32 [0x61#8, 0x62#8, 0x63#8])
      = [0x20#8, 0x00#8, 0x00#8, 0x00#8, 0x00#8, 0x00#8, 0x00#8, 0x00#8, 0x03#8, 0x61#8, 0x62#8, 0x63#8]
  ∧ decode [0x20#8, 0x00#8, 0x00#8, 0x00#8, 0x00#8, 0x00#8, 0x00#8, 0x00#8, 0x03#8, 0x61#8, 0x62#8, 0x63#8]
      = .command (.updateE32 [0x61#8, 0x62#8, 0x63#8]) []
  ∧ encode (.updateE64 []) = [0x24#8, 0x00#8, 0x00#8, 0x00#8, 0x00#8, 0x00#8, 0x00#8, 0x00#8, 0x00#8]
  ∧ decode [0x24#8, 0x00#8, 0x00#8, 0x00#8, 0x00#8, 0x00#8, 0x00#8, 0x00#8, 0x00#8] = .command (.updateE64 []) []
  ∧ encode .completeE64 = [0x34#8] ∧ decode [0x34#8] = .command .completeE64 []
  ∧ encodeAll (hashCommands .sha512 [0x61#8, 0x62#8, 0x63#8])
      = [0x15#8, 0x24#8, 0x00#8, 0x00#8, 0x00#8, 0x00#8, 0x00#8, 0x00#8, 0x00#8, 0x03#8, 0x61#8, 0x62#8, 0x63#8, 0x34#8]
  ∧ decode [0x12#8] = .illegal 0x12#8 ∧ decode [0x18#8] = .illegal 0x18#8 ∧ decode [0x21#8] = .illegal 0x21#8
  ∧ decode [0x00#8] = .illegal 0x00#8 ∧ decode [0x40#8] = .illegal 0x40#8

/-- An UPDATE is decoded only when its 8 LEN bytes and LEN payload bytes have all come; then it is the payload and the
bytes after it (R98, R106, R107). -/
def Obligations.UpdateDecodesWhenWhole : Prop :=
  (∀ (e : Eng) (bytes : List Byte), bytes.length < 8 → decode (headerByte (.update e) :: bytes) = .fragment e)
  ∧ ∀ (e : Eng) (lenField tail : List Byte), lenField.length = 8 →
    decode (headerByte (.update e) :: (lenField ++ tail)) =
      if tail.length < beNat lenField then .fragment e
      else .command (updateInstr e (tail.take (beNat lenField))) (tail.drop (beNat lenField))

/-! ### The step -/

/-- While FAULT is 0 and no digest byte waits to be taken, a step on bytes that decode to a command is exec of that
command. CIN is what follows the command, or, when the legality check will raise a fault, what follows its header byte
(R90, R102, R241, R242). -/
def Obligations.StepRunsDecodedCommand : Prop :=
  ∀ (s : State) (i : Instr) (rest : List Byte), s.fault = false → s.untaken = 0 → decode s.cin = .command i rest →
    ((∀ c, legality (lifecycleEngine i) s ≠ .raise c) → step s = exec i { s with cin := rest })
    ∧ ∀ c, legality (lifecycleEngine i) s = .raise c → step s = exec i { s with cin := s.cin.tail }

/-- An illegal header byte raises fault 1 when the CORE comes to decode it, that is while FAULT is 0 and no digest byte
waits to be taken: FAULT and CAUSE are written, the byte is consumed, nothing else changes (R240, R102, R246). -/
def Obligations.IllegalHeaderRaisesCauseOne : Prop :=
  causeCode .illegalCommand = 1#3 ∧
  ∀ (s : State) (b : Byte) (bytes : List Byte), s.fault = false → s.untaken = 0 → s.cin = b :: bytes →
    decodeHeader b = none → step s = .next { s with cin := bytes, fault := true, cause := .illegalCommand }

/-- UPDATE and COMPLETE on an engine in Uninit raise fault 2, whatever LEN and DATA are and whether or not they have
come (a step decodes a header only when no digest byte waits to be taken, R296); an engine is in Uninit from reset until
an INIT is executed on it, and in no other state (R241). -/
def Obligations.UninitRaisesNotInitialised : Prop :=
  causeCode .notInitialised = 2#3
  ∧ (∀ (e : Eng) (s : State), s.fault = false → (s.ctx e).phase = .uninit →
    (∀ data, exec (updateInstr e data) s = .next { s with fault := true, cause := .notInitialised })
    ∧ exec (completeInstr e) s = .next { s with fault := true, cause := .notInitialised }
    ∧ ∀ b bytes, s.untaken = 0 → b = headerByte (.update e) ∨ b = headerByte (.complete e) → s.cin = b :: bytes →
        step s = .next { s with cin := bytes, fault := true, cause := .notInitialised })
  ∧ (State.reset.ctx .e32).phase = .uninit ∧ (State.reset.ctx .e64).phase = .uninit
  ∧ ∀ (i : Instr) (s t : State) (e : Eng), exec i s = .next t →
    ((t.ctx e).phase = .uninit ↔
      (s.ctx e).phase = .uninit ∧ (s.fault = false → ∀ v, v.eng = e → i ≠ initInstr v))

/-- UPDATE and COMPLETE on an engine in Finalized raise fault 3, whatever LEN and DATA are and whether or not they have
come (a step decodes a header only when no digest byte waits to be taken, R296) (R243). -/
def Obligations.FinalizedRaisesReuse : Prop :=
  causeCode .finalizedReuse = 3#3 ∧
  ∀ (e : Eng) (s : State), s.fault = false → (s.ctx e).phase = .finalized →
    (∀ data, exec (updateInstr e data) s = .next { s with fault := true, cause := .finalizedReuse })
    ∧ exec (completeInstr e) s = .next { s with fault := true, cause := .finalizedReuse }
    ∧ ∀ b bytes, s.untaken = 0 → b = headerByte (.update e) ∨ b = headerByte (.complete e) → s.cin = b :: bytes →
        step s = .next { s with cin := bytes, fault := true, cause := .finalizedReuse }

/-- A host duty that is broken leaves the CORE stuck while FAULT is 0, with nothing dropped or overwritten (R107, R296,
U9). A fragment of an UPDATE that is legal to execute stops the step. While digest bytes wait to be taken, neither a step
nor a list of commands runs, whatever stands on CIN. The host takes the bytes in order and only those that are there;
with the last of them taken, nothing else having changed, none waits. `State.waiting` holds of exactly these two ways of
being stuck. That stuck is a fault of the model's own name is
the model's choice (log 7, log 10). -/
def Obligations.BrokenHostDutyStops : Prop :=
  (∀ (s : State) (e : Eng), s.fault = false → s.untaken = 0 → (s.ctx e).phase.active → decode s.cin = .fragment e →
    step s = .fault .commandFragment)
  ∧ (∀ s : State, s.fault = false → 0 < s.untaken →
    step s = .fault .digestUntaken ∧ ∀ i is, runCommands (i :: is) s = .fault .digestUntaken)
  ∧ (∀ (s : State) (n : Nat), n ≤ s.untaken → s.untaken ≤ s.dout.length →
    ∃ bytes t, s.hostTake n = some (bytes, t) ∧ bytes.length = n ∧ bytes ++ t.untakenBytes = s.untakenBytes
      ∧ s.untakenBytes.length = s.untaken ∧ s.untakenBytes <:+ s.dout ∧ t = { s with untaken := s.untaken - n })
  ∧ (∀ (s : State) (n : Nat), s.untaken < n → s.hostTake n = none)
  ∧ ∀ s : State, s.waiting = true ↔ s.fault = false ∧
      (0 < s.untaken ∨ ∃ e, decode s.cin = .fragment e ∧ (s.ctx e).phase.active)

/-- With no byte on CIN and no digest byte waiting to be taken the CORE is idle and keeps all its state (R272; that a
step then exists is the model's choice, log 7). -/
def Obligations.IdleKeepsState : Prop :=
  ∀ s : State, s.cin = [] → s.untaken = 0 → step s = .next s

/-- While FAULT is 1 every command is refused and nothing changes, INIT included; only RST clears FAULT, and it puts both
engines in Uninit (R248; that refusing is a next state equal to the old one is the model's reading, log 6). -/
def Obligations.FaultedCoreRefuses : Prop :=
  (∀ s : State, s.fault = true → step s = .next s ∧ ∀ i, exec i s = .next s)
  ∧ ∀ s : State, s.assertRst.fault = false ∧ s.assertRst.e32.phase = .uninit ∧ s.assertRst.e64.phase = .uninit

/-- A command that raises a fault has no other effect: FAULT and CAUSE are written, one header byte is consumed,
everything else keeps its value; STATUS shows FAULT and CAUSE, and every later command does nothing (R246). -/
def Obligations.RaisedFaultIsOnlyEffect : Prop :=
  (∀ (i : Instr) (s t : State), s.fault = false → exec i s = .next t → t.fault = true →
    t = { s with fault := true, cause := t.cause } ∧ (t.cause = .notInitialised ∨ t.cause = .finalizedReuse))
  ∧ ∀ s t : State, s.fault = false → step s = .next t → t.fault = true →
    t = { s with fault := true, cause := t.cause, cin := s.cin.tail } ∧ t.cause ≠ .none
    ∧ (∀ n, (t.status n).getLsbD 10 = true ∧ (t.status n).extractLsb' 11 3 = causeCode t.cause)
    ∧ ∀ i u, exec i t = .next u → u = t

/-- Only three things raise a fault, and CAUSE tells which: an illegal header byte; UPDATE or COMPLETE in Uninit; UPDATE
or COMPLETE in Finalized (R240 to R243, R250). -/
def Obligations.FaultCausesAreExact : Prop :=
  ∀ s t : State, s.fault = false → step s = .next t → t.fault = true →
    ∃ b bytes, s.cin = b :: bytes ∧
      (t.cause = .illegalCommand ∧ decodeHeader b = none
      ∨ t.cause = .notInitialised ∧ (∃ e, (decodeHeader b = some (.update e) ∨ decodeHeader b = some (.complete e))
          ∧ (s.ctx e).phase = .uninit)
      ∨ t.cause = .finalizedReuse ∧ (∃ e, (decodeHeader b = some (.update e) ∨ decodeHeader b = some (.complete e))
          ∧ (s.ctx e).phase = .finalized))

/-! ### Reset and the invariant -/

/-- After reset, and after RST in any state, both engines are in Uninit, FAULT is 0 and CAUSE is 0 (R50, R280). -/
def Obligations.ResetLeavesUninit : Prop :=
  (∀ e, (State.reset.ctx e).phase = .uninit) ∧ State.reset.fault = false ∧ State.reset.cause = .none
  ∧ ∀ s : State, (∀ e, (s.assertRst.ctx e).phase = .uninit) ∧ s.assertRst.fault = false ∧ s.assertRst.cause = .none

/-- The invariant holds at reset and after RST in any state; the values of the registers R50 leaves unspecified are the
model's (log 1, log 2). -/
def Obligations.ResetMeetsInvariant : Prop :=
  State.reset.Inv ∧ ∀ s : State, s.assertRst.Inv

/-- Every step keeps the invariant: BUF canonical and inside its 2B bytes, BUFLEN below B, TOTLEN a multiple of B,
VARIANT one of the engine's own, CAUSE 0 exactly while FAULT is 0 (R27, R28, R29, R31, R34, R60); the digest bytes that
wait to be taken are bytes of DOUT, none while the host takes them as they come (R296; the model's form of it, log 10). -/
def Obligations.StepKeepsInvariant : Prop :=
  ∀ s t : State, s.Inv → step s = .next t → t.Inv

/-- Under the invariant every command answers a next state, and a step stops only where the host breaks a duty, at a
fragment of CIN or at digest bytes not taken: no access falls outside its space (R62, R107, R296, R300). Three choices of
the model are in it: with FAULT 1, a command and a step answer the same state (R248; log 6); a fragment stops the step by
name, and with CIN empty a step keeps the state (R107, R272; log 7); digest bytes not taken stop the step by name (R296;
log 10). -/
def Obligations.NoOtherStop : Prop :=
  ∀ s : State, s.Inv →
    (∀ i, ∃ t, exec i s = .next t)
    ∧ ((∃ t, step s = .next t) ∨ 0 < s.untaken ∧ step s = .fault .digestUntaken
      ∨ (∃ e, decode s.cin = .fragment e) ∧ step s = .fault .commandFragment)

/-- With BUFLEN at or above B, which no run from reset reaches, UPDATE and COMPLETE would address BUF outside the range
R27 gives; the model stops them by name (R27, R62; the model's choice, log 5). -/
def Obligations.BufLenOutOfRangeStops : Prop :=
  ∀ (e : Eng) (s : State), s.fault = false → (s.ctx e).phase.active → blockSize e ≤ (s.ctx e).bufLen.toNat →
    (∀ data, exec (updateInstr e data) s = .fault .bufLenOutOfRange)
    ∧ exec (completeInstr e) s = .fault .bufLenOutOfRange

/-! ### INIT -/

/-- INIT.SHA224 (R222): its code, header, engine and digest; the IV row in H, BUF cleared, lengths 0, VARIANT latched, PHASE
Empty, and nothing else changed; the digest of "abc". A BUF with no listed cell reads 00 at every address. That the
transient registers V, w, t1, t2 and j keep their values over INIT is the model's choice (R38 leaves them open; log 3). -/
def Obligations.InitSha224Effect : Prop :=
  variantCode .sha224 = 0b000#3 ∧ Variant.sha224.eng = .e32 ∧ decodeHeader 0x10#8 = some (.init .sha224)
  ∧ encode .initSha224 = [0x10#8] ∧ digestSize .sha224 = 28 ∧ (∀ a, Memory.read [] a = 0x00#8)
  ∧ (∀ c : Context .e32, c.variant = .sha224 → digestOf c = (c.h.toList.take 7).flatMap fun x => beBytes 4 x.toNat)
  ∧ (∀ s : State, s.Inv → s.fault = false →
    exec .initSha224 s = .next { s with e32 := { s.e32 with
      h := #v[0xc1059ed8#32, 0x367cd507#32, 0x3070dd17#32, 0xf70e5939#32,
              0xffc00b31#32, 0x68581511#32, 0x64f98fa7#32, 0xbefa4fa4#32]
      buf := [], bufLen := 0, totLen := 0, variant := .sha224, phase := .empty } })
  ∧ ∃ t, runCommands (hashCommands .sha224 [0x61#8, 0x62#8, 0x63#8]) State.reset = .next t
    ∧ t.dout = beBytes 28
      0x23097d223405d8228642a477bda255b32aadbce4bda0b3f7e36c9da7

/-- INIT.SHA256 (R223), on E32: as INIT.SHA224 with its own row, variant, digest and example That the transient registers
V, w, t1, t2 and j keep their values over INIT is the model's choice (R38 leaves them open; log 3). -/
def Obligations.InitSha256Effect : Prop :=
  variantCode .sha256 = 0b001#3 ∧ Variant.sha256.eng = .e32 ∧ decodeHeader 0x11#8 = some (.init .sha256)
  ∧ encode .initSha256 = [0x11#8] ∧ digestSize .sha256 = 32 ∧ (∀ a, Memory.read [] a = 0x00#8)
  ∧ (∀ c : Context .e32, c.variant = .sha256 → digestOf c = c.h.toList.flatMap fun x => beBytes 4 x.toNat)
  ∧ (∀ s : State, s.Inv → s.fault = false →
    exec .initSha256 s = .next { s with e32 := { s.e32 with
      h := #v[0x6a09e667#32, 0xbb67ae85#32, 0x3c6ef372#32, 0xa54ff53a#32,
              0x510e527f#32, 0x9b05688c#32, 0x1f83d9ab#32, 0x5be0cd19#32]
      buf := [], bufLen := 0, totLen := 0, variant := .sha256, phase := .empty } })
  ∧ ∃ t, runCommands (hashCommands .sha256 [0x61#8, 0x62#8, 0x63#8]) State.reset = .next t
    ∧ t.dout = beBytes 32
      0xba7816bf8f01cfea414140de5dae2223b00361a396177a9cb410ff61f20015ad

/-- INIT.SHA384 (R224), on E64: as INIT.SHA224 with its own row, variant, digest and example That the transient registers
V, w, t1, t2 and j keep their values over INIT is the model's choice (R38 leaves them open; log 3). -/
def Obligations.InitSha384Effect : Prop :=
  variantCode .sha384 = 0b100#3 ∧ Variant.sha384.eng = .e64 ∧ decodeHeader 0x14#8 = some (.init .sha384)
  ∧ encode .initSha384 = [0x14#8] ∧ digestSize .sha384 = 48 ∧ (∀ a, Memory.read [] a = 0x00#8)
  ∧ (∀ c : Context .e64, c.variant = .sha384 → digestOf c = (c.h.toList.take 6).flatMap fun x => beBytes 8 x.toNat)
  ∧ (∀ s : State, s.Inv → s.fault = false →
    exec .initSha384 s = .next { s with e64 := { s.e64 with
      h := #v[0xcbbb9d5dc1059ed8#64, 0x629a292a367cd507#64, 0x9159015a3070dd17#64, 0x152fecd8f70e5939#64,
              0x67332667ffc00b31#64, 0x8eb44a8768581511#64, 0xdb0c2e0d64f98fa7#64, 0x47b5481dbefa4fa4#64]
      buf := [], bufLen := 0, totLen := 0, variant := .sha384, phase := .empty } })
  ∧ ∃ t, runCommands (hashCommands .sha384 [0x61#8, 0x62#8, 0x63#8]) State.reset = .next t
    ∧ t.dout = beBytes 48
      0xcb00753f45a35e8bb5a03d699ac65007272c32ab0eded1631a8b605a43ff5bed8086072ba1e7cc2358baeca134c825a7

/-- INIT.SHA512 (R225), on E64: as INIT.SHA224 with its own row, variant, digest and example That the transient registers
V, w, t1, t2 and j keep their values over INIT is the model's choice (R38 leaves them open; log 3). -/
def Obligations.InitSha512Effect : Prop :=
  variantCode .sha512 = 0b101#3 ∧ Variant.sha512.eng = .e64 ∧ decodeHeader 0x15#8 = some (.init .sha512)
  ∧ encode .initSha512 = [0x15#8] ∧ digestSize .sha512 = 64 ∧ (∀ a, Memory.read [] a = 0x00#8)
  ∧ (∀ c : Context .e64, c.variant = .sha512 → digestOf c = c.h.toList.flatMap fun x => beBytes 8 x.toNat)
  ∧ (∀ s : State, s.Inv → s.fault = false →
    exec .initSha512 s = .next { s with e64 := { s.e64 with
      h := #v[0x6a09e667f3bcc908#64, 0xbb67ae8584caa73b#64, 0x3c6ef372fe94f82b#64, 0xa54ff53a5f1d36f1#64,
              0x510e527fade682d1#64, 0x9b05688c2b3e6c1f#64, 0x1f83d9abfb41bd6b#64, 0x5be0cd19137e2179#64]
      buf := [], bufLen := 0, totLen := 0, variant := .sha512, phase := .empty } })
  ∧ ∃ t, runCommands (hashCommands .sha512 [0x61#8, 0x62#8, 0x63#8]) State.reset = .next t
    ∧ t.dout = beBytes 64
      0xddaf35a193617abacc417349ae20413112e6fa4e89a97ea20a9eeee64b55d39a2192992a274fc1a836ba3c23a3feebbd454d4423643ce80e2a9ac94fa54ca49f

/-- INIT.SHA512_224 (R226), on E64: as INIT.SHA224 with its own row, variant, digest and example That the transient registers
V, w, t1, t2 and j keep their values over INIT is the model's choice (R38 leaves them open; log 3). -/
def Obligations.InitSha512t224Effect : Prop :=
  variantCode .sha512_224 = 0b110#3 ∧ Variant.sha512_224.eng = .e64 ∧ decodeHeader 0x16#8 = some (.init .sha512_224)
  ∧ encode .initSha512_224 = [0x16#8] ∧ digestSize .sha512_224 = 28 ∧ (∀ a, Memory.read [] a = 0x00#8)
  ∧ (∀ c : Context .e64, c.variant = .sha512_224 → digestOf c =
      ((c.h.toList.take 3).flatMap fun x => beBytes 8 x.toNat) ++ beBytes 4 (c.h[3].toNat / 2 ^ 32))
  ∧ (∀ s : State, s.Inv → s.fault = false →
    exec .initSha512_224 s = .next { s with e64 := { s.e64 with
      h := #v[0x8c3d37c819544da2#64, 0x73e1996689dcd4d6#64, 0x1dfab7ae32ff9c82#64, 0x679dd514582f9fcf#64,
              0x0f6d2b697bd44da8#64, 0x77e36f7304c48942#64, 0x3f9d85a86a1d36c8#64, 0x1112e6ad91d692a1#64]
      buf := [], bufLen := 0, totLen := 0, variant := .sha512_224, phase := .empty } })
  ∧ ∃ t, runCommands (hashCommands .sha512_224 [0x61#8, 0x62#8, 0x63#8]) State.reset = .next t
    ∧ t.dout = beBytes 28
      0x4634270f707b6a54daae7530460842e20e37ed265ceee9a43e8924aa

/-- INIT.SHA512_256 (R227), on E64: as INIT.SHA224 with its own row, variant, digest and example That the transient registers
V, w, t1, t2 and j keep their values over INIT is the model's choice (R38 leaves them open; log 3). -/
def Obligations.InitSha512t256Effect : Prop :=
  variantCode .sha512_256 = 0b111#3 ∧ Variant.sha512_256.eng = .e64 ∧ decodeHeader 0x17#8 = some (.init .sha512_256)
  ∧ encode .initSha512_256 = [0x17#8] ∧ digestSize .sha512_256 = 32 ∧ (∀ a, Memory.read [] a = 0x00#8)
  ∧ (∀ c : Context .e64, c.variant = .sha512_256 → digestOf c = (c.h.toList.take 4).flatMap fun x => beBytes 8 x.toNat)
  ∧ (∀ s : State, s.Inv → s.fault = false →
    exec .initSha512_256 s = .next { s with e64 := { s.e64 with
      h := #v[0x22312194fc2bf72c#64, 0x9f555fa3c84c64c2#64, 0x2393b86b6f53b151#64, 0x963877195940eabd#64,
              0x96283ee2a88effe3#64, 0xbe5e1e2553863992#64, 0x2b0199fc2c85b8aa#64, 0x0eb72ddc81c52ca2#64]
      buf := [], bufLen := 0, totLen := 0, variant := .sha512_256, phase := .empty } })
  ∧ ∃ t, runCommands (hashCommands .sha512_256 [0x61#8, 0x62#8, 0x63#8]) State.reset = .next t
    ∧ t.dout = beBytes 32
      0x53048e2681941ef99b2e29b76b4c7dabe4c2d0c634fc6d46e0e2f13107e7af23

/-- Re-initialisation is complete: after INIT(v) every register of the engine but the hidden ones is the same whatever
the engine did before (R183). -/
def Obligations.InitForgetsHistory : Prop :=
  ∀ (v : Variant) (s s' : State), s.Inv → s'.Inv → s.fault = false → s'.fault = false →
    ∃ t t', exec (initInstr v) s = .next t ∧ exec (initInstr v) s' = .next t'
      ∧ (t.ctx v.eng).h = (t'.ctx v.eng).h ∧ (t.ctx v.eng).buf = (t'.ctx v.eng).buf
      ∧ (t.ctx v.eng).bufLen = (t'.ctx v.eng).bufLen ∧ (t.ctx v.eng).totLen = (t'.ctx v.eng).totLen
      ∧ (t.ctx v.eng).variant = (t'.ctx v.eng).variant ∧ (t.ctx v.eng).phase = (t'.ctx v.eng).phase

/-! ### UPDATE -/

/-- UPDATE.E32 and UPDATE.E64 complete in Empty and Accumulating and absorb the stream of pending bytes and payload:
every whole block of it goes into H in order, the rest is the new pending bytes, TOTLEN grows by the bytes absorbed
modulo 2^64, PHASE is Accumulating if the payload is not empty; VARIANT, the other engine, FAULT, CAUSE, CIN, DOUT and
what waits on it are unchanged (R184, R186, R188, R190, R191). -/
def Obligations.UpdateAbsorbsWholeBlocks : Prop :=
  ∀ (e : Eng) (data : List Byte) (s : State), s.Inv → s.fault = false → (s.ctx e).phase.active →
    ∃ t, exec (updateInstr e data) s = .next t
      ∧ (t.ctx e).h = absorbBlocks e (((s.ctx e).bufLen.toNat + data.length) / blockSize e) (s.ctx e).h
          (pendingBytes (s.ctx e) ++ data)
      ∧ (t.ctx e).bufLen.toNat = ((s.ctx e).bufLen.toNat + data.length) % blockSize e
      ∧ pendingBytes (t.ctx e) = (pendingBytes (s.ctx e) ++ data).drop
          (((s.ctx e).bufLen.toNat + data.length) / blockSize e * blockSize e)
      ∧ (t.ctx e).totLen.toNat = ((s.ctx e).totLen.toNat
          + ((s.ctx e).bufLen.toNat + data.length) / blockSize e * blockSize e) % 2 ^ 64
      ∧ (t.ctx e).phase = (if data = [] then (s.ctx e).phase else .accumulating)
      ∧ (t.ctx e).variant = (s.ctx e).variant ∧ FrameOutside e s t ∧ t.dout = s.dout ∧ t.untaken = s.untaken

/-- The bytes of BUF an UPDATE stores, and no other: with a buffer that does not fill, the payload at BUFLEN; with one
that fills, the first `c = B - BUFLEN` payload bytes at BUFLEN and then the last r payload bytes at 0 (R67, R186). -/
def Obligations.UpdateStoresExactly : Prop :=
  ∀ (e : Eng) (data : List Byte) (s : State), s.Inv → s.fault = false → (s.ctx e).phase.active →
    ∃ t, exec (updateInstr e data) s = .next t ∧
      ((s.ctx e).bufLen.toNat + data.length < blockSize e →
        ∀ a, (t.ctx e).buf.read a =
          if (s.ctx e).bufLen.toNat ≤ a ∧ a < (s.ctx e).bufLen.toNat + data.length
          then data.getD (a - (s.ctx e).bufLen.toNat) 0 else (s.ctx e).buf.read a)
      ∧ (blockSize e ≤ (s.ctx e).bufLen.toNat + data.length →
        ∀ a, (t.ctx e).buf.read a =
          if a < ((s.ctx e).bufLen.toNat + data.length) % blockSize e
          then data.getD (data.length - ((s.ctx e).bufLen.toNat + data.length) % blockSize e + a) 0
          else if (s.ctx e).bufLen.toNat ≤ a ∧ a < blockSize e
          then data.getD (a - (s.ctx e).bufLen.toNat) 0
          else (s.ctx e).buf.read a)

/-- An UPDATE that fills no block writes only BUF, BUFLEN and PHASE: H, TOTLEN and VARIANT keep their values (R186, R192).
The equation says so of the transient registers V, w, t1, t2 and j as well: that is the model's choice, since R38 leaves
them open between commands (log 3). -/
def Obligations.ShortUpdateRunsNoTransform : Prop :=
  ∀ (e : Eng) (data : List Byte) (s : State), s.fault = false → (s.ctx e).phase.active →
    (s.ctx e).bufLen.toNat + data.length < blockSize e →
    ∃ t, exec (updateInstr e data) s = .next t
      ∧ t = s.setCtx e { s.ctx e with
          buf := (t.ctx e).buf
          bufLen := BitVec.ofNat 8 ((s.ctx e).bufLen.toNat + data.length)
          phase := if data = [] then (s.ctx e).phase else .accumulating }

/-- An UPDATE with LEN = 0 changes nothing at all (R192 (a)). -/
def Obligations.EmptyUpdateChangesNothing : Prop :=
  ∀ (e : Eng) (s : State), s.fault = false → (s.ctx e).phase.active → (s.ctx e).bufLen.toNat < blockSize e →
    exec (updateInstr e []) s = .next s

/-- Two UPDATEs in a row leave what one UPDATE of the concatenated payload leaves, in everything that can be observed
(R208, R34). -/
def Obligations.UpdatesConcatenate : Prop :=
  ∀ (e : Eng) (d1 d2 : List Byte) (s : State), s.Inv → s.fault = false → (s.ctx e).phase.active →
    ∃ t1 t2 t, exec (updateInstr e d1) s = .next t1 ∧ exec (updateInstr e d2) t1 = .next t2
      ∧ exec (updateInstr e (d1 ++ d2)) s = .next t
      ∧ SameVisible (t2.ctx e) (t.ctx e) ∧ FrameOutside e t t2 ∧ t2.dout = t.dout ∧ t2.untaken = t.untaken

/-- UPDATE does not read VARIANT: with another variant latched it does the same (R229). -/
def Obligations.UpdateIgnoresVariant : Prop :=
  ∀ (e : Eng) (data : List Byte) (v : Variant) (s t : State), exec (updateInstr e data) s = .next t →
    exec (updateInstr e data) (s.setCtx e { s.ctx e with variant := v })
      = .next (t.setCtx e { t.ctx e with variant := v })

/-! ### COMPLETE -/

/-- COMPLETE.E32 and COMPLETE.E64 complete in Empty and Accumulating: the pending bytes, 0x80, zeros and the 64-bit
big-endian bit length make one block if BUFLEN is at most PADMAX, else two; they go into H; the leading DS bytes of the
serialised H are appended to DOUT and, unless the host takes them as they come, wait to be taken (R296; log 10); PHASE is
Finalized; BUFLEN, TOTLEN, VARIANT, the other engine, FAULT, CAUSE and CIN are
unchanged (R194, R196 to R200, R202, R206, R207). -/
def Obligations.CompleteEmitsDigest : Prop :=
  padMax .e32 = 55 ∧ padMax .e64 = 111 ∧
  ∀ (e : Eng) (s : State), s.Inv → s.fault = false → (s.ctx e).phase.active →
    ∃ t nb, exec (completeInstr e) s = .next t
      ∧ nb = (if (s.ctx e).bufLen.toNat ≤ padMax e then 1 else 2)
      ∧ (t.ctx e).h = absorbBlocks e nb (s.ctx e).h
          (pendingBytes (s.ctx e) ++ [0x80#8]
            ++ List.replicate (nb * blockSize e - (s.ctx e).bufLen.toNat - 9) 0x00#8
            ++ beBytes 8 (((s.ctx e).totLen.toNat + (s.ctx e).bufLen.toNat) * 8 % 2 ^ 64))
      ∧ t.dout = s.dout ++ (serialize (t.ctx e).h).take (digestSize (s.ctx e).variant)
      ∧ t.untaken = (if s.hostTakes then s.untaken else s.untaken + digestSize (s.ctx e).variant)
      ∧ (t.ctx e).bufLen = (s.ctx e).bufLen ∧ (t.ctx e).totLen = (s.ctx e).totLen
      ∧ (t.ctx e).variant = (s.ctx e).variant ∧ (t.ctx e).phase = .finalized ∧ FrameOutside e s t

/-- What COMPLETE leaves in BUF, byte by byte: the pending bytes, the marker at BUFLEN, zeros, the 8 bytes of L at the end
of the last block, and every byte after it as before (R61, R198, R203). -/
def Obligations.CompletePadsBuffer : Prop :=
  ∀ (e : Eng) (s : State), s.Inv → s.fault = false → (s.ctx e).phase.active →
    ∃ t pm, exec (completeInstr e) s = .next t
      ∧ pm = (if (s.ctx e).bufLen.toNat ≤ padMax e then blockSize e else 2 * blockSize e)
      ∧ (s.ctx e).bufLen.toNat ≤ pm - 1 - lenRegion e ∧ pm - 1 - lenRegion e < pm - 8
      ∧ ∀ a, (t.ctx e).buf.read a =
          if a < (s.ctx e).bufLen.toNat then (s.ctx e).buf.read a
          else if a = (s.ctx e).bufLen.toNat then 0x80#8
          else if a < pm - 8 then 0x00#8
          else if a < pm then BitVec.ofNat 8
            (((s.ctx e).totLen.toNat + (s.ctx e).bufLen.toNat) * 8 % 2 ^ 64 / 256 ^ (pm - 1 - a))
          else (s.ctx e).buf.read a

/-- Serialisation is big-endian, word by word, SB bytes in all (R200). -/
def Obligations.SerializeIsBigEndian : Prop :=
  ∀ (e : Eng) (h : Vector (Word e) 8), (serialize h).length = 8 * wordBytes e ∧
    ∀ (i : Fin 8) (k : Nat), k < wordBytes e →
      (serialize h).getD (wordBytes e * i.val + k) 0
        = BitVec.ofNat 8 ((h[i].toNat >>> (8 * (wordBytes e - 1 - k))) % 256)

/-- A step appends nothing to DOUT, or runs a COMPLETE and appends exactly the leading DS bytes of the serialised state,
DS being the digest size of the latched variant (R202, R33). -/
def Obligations.OnlyCompleteAppends : Prop :=
  ∀ s t : State, s.Inv → step s = .next t →
    t.dout = s.dout
    ∨ ∃ e rest, decode s.cin = .command (completeInstr e) rest
        ∧ t.dout = s.dout ++ (serialize (t.ctx e).h).take (digestSize (s.ctx e).variant)
        ∧ t.dout.length = s.dout.length + digestSize (s.ctx e).variant

/-! ### A whole computation -/

/-- INIT, any UPDATEs, COMPLETE: with no earlier digest byte waiting, each command answers a next state, and together they
append the digest of the concatenated payload as a function of the message alone, leave FAULT 0 and do not touch the other
engine (R34, R208, R230). The digest's bytes wait to be taken unless the host takes them as they come (R296; log 10); once
they are taken and CIN is empty the run is a good one (R298). -/
def Obligations.HashRunGivesReferenceDigest : Prop :=
  ∀ (v : Variant) (chunks : List (List Byte)) (s : State), s.Inv → s.fault = false → s.untaken = 0 →
    ∃ t, runCommands (hashRun v chunks) s = .next t
      ∧ t.dout = s.dout ++ refDigest v chunks.flatten
      ∧ (t.ctx v.eng).phase = .finalized ∧ FrameOutside v.eng s t
      ∧ t.untaken = (if s.hostTakes then 0 else digestSize v)
      ∧ (s.cin = [] → ∃ t', t.hostTake t.untaken = some (t.untakenBytes, t') ∧ t'.good)

/-- Streaming equivalence: however a message is split into UPDATEs, the digest is the same as with one UPDATE, and for an
empty message as with none (R208); no earlier digest byte waits to be taken, so the commands run (R296). -/
def Obligations.StreamingEquivalence : Prop :=
  ∀ (v : Variant) (chunks : List (List Byte)) (s : State), s.Inv → s.fault = false → s.untaken = 0 →
    ∃ t t1, runCommands (hashRun v chunks) s = .next t
      ∧ runCommands (hashRun v [chunks.flatten]) s = .next t1 ∧ t.dout = t1.dout
      ∧ t.dout.length = s.dout.length + digestSize v ∧ t.dout = s.dout ++ refDigest v chunks.flatten
      ∧ (chunks.flatten = [] → ∃ t0, runCommands (hashRun v []) s = .next t0 ∧ t.dout = t0.dout)

/-- An engine holds its message: INIT makes it hold the empty one, an UPDATE appends its payload to the message held, and
a command to the other engine leaves it held. `HoldsMessage` is R34 (a) to (d): BUFLEN is len(M) mod B and below B, TOTLEN
is a multiple of B, TOTLEN + BUFLEN is len(M) modulo 2^64, BUF holds the last BUFLEN bytes of M, and H is the IV row after
all whole blocks of M. -/
def Obligations.ContextHoldsMessage : Prop :=
  (∀ (v : Variant) (s : State), s.Inv → s.fault = false →
    ∃ t, exec (initInstr v) s = .next t ∧ HoldsMessage v (t.ctx v.eng) [])
  ∧ (∀ (v : Variant) (msg data : List Byte) (s : State), s.Inv → s.fault = false →
    HoldsMessage v (s.ctx v.eng) msg →
    ∃ t, exec (updateInstr v.eng data) s = .next t ∧ HoldsMessage v (t.ctx v.eng) (msg ++ data))
  ∧ ∀ (v : Variant) (msg : List Byte) (i : Instr) (s t : State), addressedEngine i ≠ v.eng → exec i s = .next t →
    HoldsMessage v (s.ctx v.eng) msg → HoldsMessage v (t.ctx v.eng) msg

/-- How many blocks UPDATE and COMPLETE transform: the whole blocks of the pending bytes and payload, and in all the least
number that holds message, marker and length region (R192 (f), R210). -/
def Obligations.TransformCounts : Prop :=
  (∀ (e : Eng) (bl n : Nat), bl < blockSize e → blockSize e ≤ bl + n →
    directBlocks e bl n + 1 = (bl + n) / blockSize e)
  ∧ (∀ m, m / 64 + finalBlocks .e32 (m % 64) = (m + 72) / 64)
  ∧ ∀ m, m / 128 + finalBlocks .e64 (m % 128) = (m + 144) / 128

/-! ### PHASE, VARIANT, STATUS, the streams -/

/-- The PHASE transition table: every row and column of it (R204). -/
def Obligations.PhaseTransitions : Prop :=
  ∀ (e : Eng) (s : State), s.Inv → s.fault = false →
    (∀ v : Variant, v.eng = e → ∃ t, exec (initInstr v) s = .next t ∧ (t.ctx e).phase = .empty ∧ t.fault = false)
    ∧ ((s.ctx e).phase = .uninit →
        (∀ data, ∃ t, exec (updateInstr e data) s = .next t ∧ t.fault = true ∧ t.cause = .notInitialised
          ∧ (t.ctx e).phase = .uninit)
        ∧ ∃ t, exec (completeInstr e) s = .next t ∧ t.fault = true ∧ t.cause = .notInitialised
          ∧ (t.ctx e).phase = .uninit)
    ∧ ((s.ctx e).phase = .empty →
        (∃ t, exec (updateInstr e []) s = .next t ∧ t.fault = false ∧ (t.ctx e).phase = .empty)
        ∧ (∀ data, data ≠ [] → ∃ t, exec (updateInstr e data) s = .next t ∧ t.fault = false
          ∧ (t.ctx e).phase = .accumulating)
        ∧ ∃ t, exec (completeInstr e) s = .next t ∧ t.fault = false ∧ (t.ctx e).phase = .finalized)
    ∧ ((s.ctx e).phase = .accumulating →
        (∀ data, ∃ t, exec (updateInstr e data) s = .next t ∧ t.fault = false ∧ (t.ctx e).phase = .accumulating)
        ∧ ∃ t, exec (completeInstr e) s = .next t ∧ t.fault = false ∧ (t.ctx e).phase = .finalized)
    ∧ ((s.ctx e).phase = .finalized →
        (∀ data, ∃ t, exec (updateInstr e data) s = .next t ∧ t.fault = true ∧ t.cause = .finalizedReuse
          ∧ (t.ctx e).phase = .finalized)
        ∧ ∃ t, exec (completeInstr e) s = .next t ∧ t.fault = true ∧ t.cause = .finalizedReuse
          ∧ (t.ctx e).phase = .finalized)

/-- VARIANT is written by INIT with its own variant, on that variant's engine, and by no other command (R29). -/
def Obligations.OnlyInitWritesVariant : Prop :=
  ∀ (s t : State) (e : Eng), step s = .next t → (t.ctx e).variant ≠ (s.ctx e).variant →
    ∃ v rest, decode s.cin = .command (initInstr v) rest ∧ v.eng = e ∧ (t.ctx e).variant = v

/-- The STATUS word of read number n, field by field, with the codes of PHASE; an engine's VARIANT bits are claimed only
while its PHASE is not Uninit, and nothing is claimed of two reads in Uninit (R32, R30, U5; log 8). While the CORE waits
for no byte, read number n by the host gives this word (R296; that a read while it waits is one inside a command is the
model's choice, log 9). -/
def Obligations.StatusWordLayout : Prop :=
  (phaseCode .uninit = 0#2 ∧ phaseCode .empty = 1#2 ∧ phaseCode .accumulating = 2#2 ∧ phaseCode .finalized = 3#2) ∧
  ∀ (s : State) (n : Nat),
    (s.status n).extractLsb' 0 2 = phaseCode s.e32.phase ∧ (s.status n).extractLsb' 2 2 = phaseCode s.e64.phase
    ∧ (s.e32.phase ≠ .uninit → (s.status n).extractLsb' 4 3 = variantCode s.e32.variant)
    ∧ (s.e64.phase ≠ .uninit → (s.status n).extractLsb' 7 3 = variantCode s.e64.variant)
    ∧ (s.status n).getLsbD 10 = s.fault ∧ (s.status n).extractLsb' 11 3 = causeCode s.cause
    ∧ (s.status n).extractLsb' 14 2 = 0#2 ∧ (s.waiting = false → s.readStatus n = s.status n)

/-- CIN is consumed from the front and never re-read: what a step leaves on it is an end of what was there (R33, R68,
R108). -/
def Obligations.CinConsumedFromFront : Prop :=
  ∀ s t : State, step s = .next t → ∃ used, s.cin = used ++ t.cin

/-! ### Isolation -/

/-- The two engines share nothing: a command changes nothing of the engine it is not addressed to, and what it does to its
own engine, to FAULT and CAUSE, and what it appends to DOUT, do not depend on the other engine (R37). -/
def Obligations.EnginesShareNothing : Prop :=
  ∀ (i : Instr) (s s' t : State),
    s.ctx (addressedEngine i) = s'.ctx (addressedEngine i) → s.fault = s'.fault → s.cause = s'.cause →
    exec i s = .next t →
    t.ctx (otherEng (addressedEngine i)) = s.ctx (otherEng (addressedEngine i))
    ∧ ∃ t' bytes, exec i s' = .next t' ∧ t'.ctx (addressedEngine i) = t.ctx (addressedEngine i)
      ∧ t'.ctx (otherEng (addressedEngine i)) = s'.ctx (otherEng (addressedEngine i))
      ∧ t'.fault = t.fault ∧ t'.cause = t.cause ∧ t.dout = s.dout ++ bytes ∧ t'.dout = s'.dout ++ bytes

/-- Commands to different engines commute while neither faults; DOUT differs only if both are COMPLETEs (R294). -/
def Obligations.EnginesCommute : Prop :=
  ∀ (i i' : Instr) (s t t' : State), addressedEngine i' = otherEng (addressedEngine i) →
    exec i s = .next t → t.fault = false → exec i' s = .next t' → t'.fault = false →
    ∃ u u', exec i' t = .next u ∧ exec i t' = .next u' ∧ (∀ e, u.ctx e = u'.ctx e) ∧ u.fault = u'.fault
      ∧ u.cause = u'.cause ∧ u.cin = u'.cin
      ∧ (i ≠ completeInstr (addressedEngine i) ∨ i' ≠ completeInstr (addressedEngine i') → u.dout = u'.dout)

/-- Hidden state is unobservable: two states that differ only in V, w, t1, t2, j and in bytes of BUF at and above BUFLEN
stay so under every step, with the same DOUT, bytes of it waiting to be taken, FAULT and CAUSE (R38, R39). -/
def Obligations.HiddenStateUnobservable : Prop :=
  ∀ s s' t : State, s.Inv → s'.Inv → (∀ e, SameVisible (s.ctx e) (s'.ctx e)) → s.fault = s'.fault →
    s.cause = s'.cause → s.cin = s'.cin → s.dout = s'.dout → s.untaken = s'.untaken → s.hostTakes = s'.hostTakes →
    step s = .next t →
    ∃ t', step s' = .next t' ∧ (∀ e, SameVisible (t.ctx e) (t'.ctx e)) ∧ t.fault = t'.fault ∧ t.cause = t'.cause
      ∧ t.cin = t'.cin ∧ t.dout = t'.dout ∧ t.untaken = t'.untaken ∧ t.hostTakes = t'.hostTakes

/-! ### TRANSFORM -/

/-- H after a TRANSFORM is the one-block function applied to the blocks in order: it does not depend on the transient
registers, on the space S, or on the base, beyond the bytes read (R162, R164). -/
def Obligations.TransformIsCompress : Prop :=
  ∀ (e : Eng) (src : List Byte) (base n : Nat) (c : Context e),
    (transform src base n c).h = absorbBlocks e n c.h (src.drop base)

/-- TRANSFORM composes, and H after it depends only on H and on the bytes read: not on the space, the base or the transient
registers (R164). -/
def Obligations.TransformComposes : Prop :=
  ∀ (e : Eng) (src : List Byte) (base m n : Nat) (c : Context e),
    transform src base (m + n) c = transform src (base + blockSize e * m) n (transform src base m c)
    ∧ ∀ (src' : List Byte) (base' : Nat) (c' : Context e), c.h = c'.h →
      (src.drop base).take (n * blockSize e) = (src'.drop base').take (n * blockSize e) →
      (transform src base n c).h = (transform src' base' n c').h

/-- UNPACK and EXPAND: the first 16 schedule words are the block's big-endian words, every later one is the sum R154 gives,
and no other transient register changes; the words of the "abc" block and of an all-zero block (R152, R154). -/
def Obligations.ScheduleRecurrence : Prop :=
  (∀ (e : Eng) (src : List Byte) (o : Nat) (d : Datapath e),
    (∀ i, i < 16 → wRead (expand (unpack src o d)).w i
      = BitVec.ofNat e.width (memRead src (o + wordBytes e * i) (wordBytes e)))
    ∧ (∀ i, 16 ≤ i → i < e.rounds → wRead (expand (unpack src o d)).w i
      = f4 e (wRead (expand (unpack src o d)).w (i - 2)) + wRead (expand (unpack src o d)).w (i - 7)
        + f3 e (wRead (expand (unpack src o d)).w (i - 15)) + wRead (expand (unpack src o d)).w (i - 16))
    ∧ (expand (unpack src o d)).v = d.v ∧ (expand (unpack src o d)).t1 = d.t1
    ∧ (expand (unpack src o d)).t2 = d.t2 ∧ (expand (unpack src o d)).j = d.j)
  ∧ (∀ (e : Eng) (d : Datapath e) (i : Nat), i < e.rounds →
    wRead (expand (unpack (List.replicate (blockSize e) 0x00#8) 0 d)).w i = 0)
  ∧ (let w := (expand (unpack (paddedMessage .e32 [0x61#8, 0x62#8, 0x63#8]) 0 (Datapath.reset .e32))).w
    (List.range 16).map (wRead w) = 0x61626380#32 :: List.replicate 14 0#32 ++ [0x00000018#32]
    ∧ [16, 17, 18, 19, 63].map (wRead w)
      = [0x61626380#32, 0x000f0000#32, 0x7da86405#32, 0x600003c6#32, 0x12b1edeb#32])
  ∧ (let w := (expand (unpack (paddedMessage .e64 [0x61#8, 0x62#8, 0x63#8]) 0 (Datapath.reset .e64))).w
    (List.range 16).map (wRead w)
      = 0x6162638000000000#64 :: List.replicate 14 0#64 ++ [0x0000000000000018#64]
    ∧ [16, 17, 18, 19, 79].map (wRead w)
      = [0x6162638000000000#64, 0x00030000000000c0#64, 0x0a9699a24c700003#64, 0x00000c0060000603#64,
         0x92aeeed1a7bcf7d2#64])

/-- One round: t1, t2 and the eight assignments, all from the values before the round; the rounds in order; round 0 of the
"abc" block on both engines (R158). -/
def Obligations.RoundEquations : Prop :=
  (∀ (e : Eng) (j : Nat) (d : Datapath e),
    (roundAt j d).t1 = d.v[7] + f2 e d.v[4] + ch d.v[4] d.v[5] d.v[6] + kWord e j + wRead d.w j
    ∧ (roundAt j d).t2 = f1 e d.v[0] + maj d.v[0] d.v[1] d.v[2]
    ∧ (roundAt j d).v[7] = d.v[6] ∧ (roundAt j d).v[6] = d.v[5] ∧ (roundAt j d).v[5] = d.v[4]
    ∧ (roundAt j d).v[4] = d.v[3] + (roundAt j d).t1 ∧ (roundAt j d).v[3] = d.v[2] ∧ (roundAt j d).v[2] = d.v[1]
    ∧ (roundAt j d).v[1] = d.v[0] ∧ (roundAt j d).v[0] = (roundAt j d).t1 + (roundAt j d).t2 ∧ (roundAt j d).w = d.w)
  ∧ (∀ (e : Eng) (d : Datapath e), rounds d = (List.range e.rounds).foldl (fun d j => roundAt j d) d)
  ∧ Eng.e32.rounds = 64 ∧ Eng.e64.rounds = 80
  ∧ (let d := loadV (e := .e32) ivSha256
      (expand (unpack (paddedMessage .e32 [0x61#8, 0x62#8, 0x63#8]) 0 (Datapath.reset .e32)))
    (roundAt 0 d).t1 = 0x54da50e8#32 ∧ (roundAt 0 d).t2 = 0x08909ae5#32
    ∧ (roundAt 0 d).v = #v[0x5d6aebcd#32, 0x6a09e667#32, 0xbb67ae85#32, 0x3c6ef372#32,
        0xfa2a4622#32, 0x510e527f#32, 0x9b05688c#32, 0x1f83d9ab#32])
  ∧ (let d := loadV (e := .e64) ivSha512
      (expand (unpack (paddedMessage .e64 [0x61#8, 0x62#8, 0x63#8]) 0 (Datapath.reset .e64)))
    (roundAt 0 d).t1 = 0xb37b0cfa1b97e8a0#64 ∧ (roundAt 0 d).t2 = 0x4334c1bea164f555#64
    ∧ (roundAt 0 d).v[0] = 0xf6afceb8bcfcddf5#64 ∧ (roundAt 0 d).v[4] = 0x58cb02347ab51f91#64)

/-- LOADV copies H into V; ACCUMULATE adds V into H word by word, with the sum of the "abc" block (R156, R160). -/
def Obligations.LoadAndAccumulate : Prop :=
  (∀ (e : Eng) (h : Vector (Word e) 8) (d : Datapath e), loadV h d = { d with v := h })
  ∧ (∀ (e : Eng) (h v : Vector (Word e) 8) (i : Fin 8), (accumulate h v)[i] = h[i] + v[i])
  ∧ (let d := runDatapath (e := .e32) (paddedMessage .e32 [0x61#8, 0x62#8, 0x63#8]) 0 ivSha256 (Datapath.reset .e32)
    d.v = #v[0x506e3058#32, 0xd39a2165#32, 0x04d24d6c#32, 0xb85e2ce9#32,
        0x5ef50f24#32, 0xfb121210#32, 0x948d25b6#32, 0x961f4894#32]
    ∧ accumulate (e := .e32) ivSha256 d.v = #v[0xba7816bf#32, 0x8f01cfea#32, 0x414140de#32, 0x5dae2223#32,
        0xb00361a3#32, 0x96177a9c#32, 0xb410ff61#32, 0xf20015ad#32])

/-- The unrolled rounds, in which registers keep their places and roles rotate, give the same working variables as the
looped rounds; after 8 rounds the roles are back where they started, and N is a multiple of 8 (R159, R9). -/
def Obligations.UnrolledRoundsEqualLooped : Prop :=
  (∀ (e : Eng) (d : Datapath e), unrolledRounds d.w d.v = (rounds d).v)
  ∧ (∀ j i, roleIndex (j + 8) i = roleIndex j i) ∧ ∀ e : Eng, e.rounds % 8 = 0

/-! ### Primitives -/

/-- ROTR bit by bit, and its corner cases and examples (R122). -/
def Obligations.RotrMovesBits : Prop :=
  (∀ (w : Nat) (x : BitVec w) (n i : Nat), 0 < n → n < w → i < w →
    (rotr x n).getLsbD i = x.getLsbD ((i + n) % w))
  ∧ (∀ (w : Nat) (n : Nat), 0 < n → n < w → rotr (0#w) n = 0#w ∧ rotr (BitVec.allOnes w) n = BitVec.allOnes w)
  ∧ rotr (1#32) 1 = 0x80000000#32 ∧ rotr (0x12345678#32) 4 = 0x81234567#32
  ∧ rotr (0x80000000#32) 31 = 0x00000001#32 ∧ rotr (0x0123456789abcdef#64) 8 = 0xef0123456789abcd#64
  ∧ rotr (1#64) 61 = 0x0000000000000008#64

/-- SHR is floor division by a power of two; corner case and examples (R123). -/
def Obligations.ShrIsFloorDivision : Prop :=
  (∀ (w : Nat) (x : BitVec w) (n : Nat), 0 < n → n < w → (shr x n).toNat = x.toNat / 2 ^ n)
  ∧ (∀ (w : Nat) (x : BitVec w) (n : Nat), 0 < n → n < w → x.toNat < 2 ^ n → shr x n = 0#w)
  ∧ shr (0x80000000#32) 3 = 0x10000000#32 ∧ shr (0xffffffff#32) 10 = 0x003fffff#32 ∧ shr (0x00000007#32) 3 = 0#32
  ∧ shr (0x8000000000000000#64) 7 = 0x0100000000000000#64

/-- CH selects y where x has a 1 and z where it has a 0; its two terms never overlap, so XOR, OR and addition agree
(R124). -/
def Obligations.ChooseSelectsBits : Prop :=
  ∀ (w : Nat) (x y z : BitVec w),
    (∀ i, i < w → (ch x y z).getLsbD i = if x.getLsbD i then y.getLsbD i else z.getLsbD i)
    ∧ ch (BitVec.allOnes w) y z = y ∧ ch (0#w) y z = z
    ∧ ch x y z = ((x &&& y) ||| (~~~x &&& z)) ∧ ch x y z = (x &&& y) + (~~~x &&& z)
    ∧ ch (0x510e527f#32) 0x9b05688c#32 0x1f83d9ab#32 = 0x1f85c98c#32
    ∧ ch (0xf0f0f0f0#32) 0xffffffff#32 0x00000000#32 = 0xf0f0f0f0#32
    ∧ ch (0x510e527fade682d1#64) 0x9b05688c2b3e6c1f#64 0x1f83d9abfb41bd6b#64 = 0x1f85c98c7b273d3b#64

/-- MAJ takes the value at least two operands have; it is symmetric, with the corner cases of R125. -/
def Obligations.MajorityOfBits : Prop :=
  ∀ (w : Nat) (x y z : BitVec w),
    (∀ i, i < w → (maj x y z).getLsbD i =
      ((x.getLsbD i && y.getLsbD i) || (x.getLsbD i && z.getLsbD i) || (y.getLsbD i && z.getLsbD i)))
    ∧ maj x y z = maj y x z ∧ maj x y z = maj x z y ∧ maj x x z = x ∧ maj (0#w) (BitVec.allOnes w) z = z
    ∧ maj (0x6a09e667#32) 0xbb67ae85#32 0x3c6ef372#32 = 0x3a6fe667#32
    ∧ maj (0x6a09e667f3bcc908#64) 0xbb67ae8584caa73b#64 0x3c6ef372fe94f82b#64 = 0x3a6fe667f69ce92b#64

/-- The eight sigma functions are linear over XOR, and rotations compose (R135). -/
def Obligations.SigmasAreLinear : Prop :=
  (∀ (e : Eng) (x y : Word e),
    f1 e (x ^^^ y) = f1 e x ^^^ f1 e y ∧ f2 e (x ^^^ y) = f2 e x ^^^ f2 e y
    ∧ f3 e (x ^^^ y) = f3 e x ^^^ f3 e y ∧ f4 e (x ^^^ y) = f4 e x ^^^ f4 e y)
  ∧ (∀ e : Eng, f1 e 0 = 0 ∧ f2 e 0 = 0 ∧ f3 e 0 = 0 ∧ f4 e 0 = 0)
  ∧ ∀ (w : Nat) (x : BitVec w) (m n : Nat), 0 < m → m < w → 0 < n → n < w → (m + n) % w ≠ 0 →
    rotr (rotr x m) n = rotr x ((m + n) % w)

/-! ### ROM contents -/

/-- `K64[j]` is the first 64 bits of the fractional part of the cube root of the (j+1)-th prime, and `K32[j]` is its high
half (R42). -/
def Obligations.RoundConstantsAreCubeRoots : Prop :=
  (∀ j, j < 80 → ∃ r, IsRoot 3 (firstPrimes.getD j 0 * 2 ^ 192) r ∧ kWord .e64 j = BitVec.ofNat 64 r)
  ∧ ∀ j, j < 64 → kWord .e32 j = (kWord .e64 j).extractLsb' 32 32

/-- The SHA-512 and SHA-384 rows are the first 64 bits of the fractional parts of the square roots of primes 1 to 8 and 9
to 16; the SHA-256 and SHA-224 rows are their high and low halves; the SHA-512/t rows are the state words E64 itself
reaches by UPDATE and COMPLETE from the SHA-512 row XOR a5a5a5a5a5a5a5a5 on the ASCII names "SHA-512/224" and
"SHA-512/256" (R49). -/
def Obligations.InitialValuesAreSquareRoots : Prop :=
  (∀ i : Fin 8, ∃ r, IsRoot 2 (firstPrimes.getD i.val 0 * 2 ^ 128) r ∧ ivSha512[i] = BitVec.ofNat 64 r)
  ∧ (∀ i : Fin 8, ∃ r, IsRoot 2 (firstPrimes.getD (i.val + 8) 0 * 2 ^ 128) r ∧ ivSha384[i] = BitVec.ofNat 64 r)
  ∧ (∀ i : Fin 8, ivSha256[i] = ivSha512[i].extractLsb' 32 32 ∧ ivSha224[i] = ivSha384[i].extractLsb' 0 32)
  ∧ (∃ t, runCommands [.updateE64 (dataBytes (.ascii "SHA-512/224")), .completeE64] { State.reset with
        e64 := { Context.reset .e64 with h := ivSha512.map (· ^^^ 0xa5a5a5a5a5a5a5a5#64), phase := .empty } } = .next t
      ∧ t.e64.h = ivSha512_224)
  ∧ ∃ t, runCommands [.updateE64 (dataBytes (.ascii "SHA-512/256")), .completeE64] { State.reset with
        e64 := { Context.reset .e64 with h := ivSha512.map (· ^^^ 0xa5a5a5a5a5a5a5a5#64), phase := .empty } } = .next t
      ∧ t.e64.h = ivSha512_256
end

