-- ==== Sys2Proof/Laws/Decode.lean ====
section
/-! SUPPORT. Laws/Decode.lean: the header byte and its encoding, and what the decoder can answer. -/

namespace Sys2Proof

/-- A header's byte decodes to it (R91, R100). -/
theorem decodeHeader_headerByte (h : Header) : decodeHeader (headerByte h) = some h := by
  cases h with
  | init v => cases v <;> decide
  | update e => cases e <;> decide
  | complete e => cases e <;> decide

/-- A legal header byte is the byte of what it decodes to: no bit of it is dropped (R91, R102). -/
theorem headerByte_of_decodeHeader : ∀ b : Byte, ∀ h ∈ decodeHeader b, headerByte h = b := by decide

/-- The decoder waits with no verdict exactly when no byte has come. -/
theorem decode_eq_empty {bytes : List Byte} : decode bytes = .empty ↔ bytes = [] := by
  cases bytes with
  | nil => exact ⟨fun _ => rfl, fun _ => rfl⟩
  | cons b bytes =>
    refine ⟨fun h => ?_, fun h => nomatch h⟩
    simp only [decode] at h
    split at h
    · cases h
    · cases h
    · simp only [decodeUpdate] at h
      split at h
      · cases h
      · split at h <;> cases h
    · cases h

/-- An illegal verdict is about the byte at the head, and that byte is no legal header (R102). -/
theorem decode_illegal {bytes : List Byte} {b : Byte} (h : decode bytes = .illegal b) :
    decodeHeader b = none ∧ ∃ tail, bytes = b :: tail := by
  cases bytes with
  | nil => cases h
  | cons c bytes =>
    simp only [decode] at h
    split at h
    · next hc => cases h; exact ⟨hc, bytes, rfl⟩
    · cases h
    · simp only [decodeUpdate] at h
      split at h
      · cases h
      · split at h <;> cases h
    · cases h

/-- A byte that is no legal header makes the verdict illegal, whatever follows it (R102). -/
theorem decode_of_decodeHeader_none {b : Byte} (h : decodeHeader b = none) (bytes : List Byte) :
    decode (b :: bytes) = .illegal b := by
  simp [decode, h]

end Sys2Proof
end

