-- ==== Sys2Proof/Laws/Memory.lean ====
section
/-! SUPPORT. Laws/Memory.lean: BUF. A read after a write, that every operation keeps the canonical form and the
address range, and that a canonical memory is determined by what it reads as. -/

namespace Sys2Proof.Machine

/-! ### One cell -/

/-- An address below every listed one reads as unlisted. -/
theorem Memory.read_of_forall_ne {m : Memory} {a : Nat} (h : ∀ c ∈ m, c.1 ≠ a) : m.read a = unlisted := by
  induction m with
  | nil => rfl
  | cons c m ih =>
    obtain ⟨k, v⟩ := c
    have hk : k ≠ a := h (k, v) (by simp)
    simp [Memory.read, hk, ih fun c hc => h c (List.mem_cons_of_mem _ hc)]

@[simp] theorem Memory.read_nil (a : Nat) : Memory.read [] a = unlisted := rfl

theorem Memory.read_put_self {m : Memory} {a : Nat} (b : Byte) (h : ∀ c ∈ m, a < c.1) :
    (Memory.put a b m).read a = b := by
  unfold Memory.put
  split
  · next hb => rw [hb]; exact Memory.read_of_forall_ne fun c hc => Nat.ne_of_gt (h c hc)
  · simp [Memory.read]

theorem Memory.read_put_of_ne {m : Memory} {a x : Nat} (b : Byte) (h : x ≠ a) :
    (Memory.put a b m).read x = m.read x := by
  unfold Memory.put
  split
  · rfl
  · simp [Memory.read, Ne.symm h]

/-- The first cell of a canonical memory has the lowest address. -/
theorem Memory.wf_cons {k : Nat} {v : Byte} {m : Memory} :
    Memory.wf ((k, v) :: m) ↔ (∀ c ∈ m, k < c.1) ∧ v ≠ unlisted ∧ Memory.wf m := by
  simp only [Memory.wf, List.pairwise_cons, List.mem_cons, forall_eq_or_imp]
  tauto

theorem Memory.wf_nil : Memory.wf [] := by simp [Memory.wf]

theorem Memory.wf_put {m : Memory} {a : Nat} (b : Byte) (h : ∀ c ∈ m, a < c.1) (hm : m.wf) :
    (Memory.put a b m).wf := by
  unfold Memory.put
  split
  · exact hm
  · next hb => exact Memory.wf_cons.2 ⟨h, hb, hm⟩

theorem Memory.mem_put {m : Memory} {a : Nat} {b : Byte} {c : Host.Cell} (h : c ∈ Memory.put a b m) :
    c = (a, b) ∨ c ∈ m := by
  unfold Memory.put at h
  split at h
  · exact .inr h
  · simpa using h

/-! ### Write -/

/-- A cell of the memory after a write is the written one or was there before. -/
theorem Memory.mem_write {m : Memory} {a : Nat} {b : Byte} {c : Host.Cell} (h : c ∈ m.write a b) :
    c = (a, b) ∨ c ∈ m := by
  induction m with
  | nil => exact Memory.mem_put h
  | cons d m ih =>
    obtain ⟨k, v⟩ := d
    simp only [Memory.write] at h
    split at h
    · exact Memory.mem_put h
    · split at h
      · exact (Memory.mem_put h).imp_right (List.mem_cons_of_mem _)
      · rcases List.mem_cons.1 h with h | h
        · exact .inr (by simp [h])
        · exact (ih h).imp_right (List.mem_cons_of_mem _)

/-- A read at the written address gives the value written. -/
theorem Memory.read_write_self {m : Memory} (hm : m.wf) (a : Nat) (b : Byte) : (m.write a b).read a = b := by
  induction m with
  | nil => exact Memory.read_put_self b (by simp)
  | cons c m ih =>
    obtain ⟨k, v⟩ := c
    obtain ⟨hk, -, hm⟩ := Memory.wf_cons.1 hm
    simp only [Memory.write]
    split
    · next h =>
      exact Memory.read_put_self b fun c hc => by
        rcases List.mem_cons.1 hc with rfl | hc
        · exact h
        · exact h.trans (hk c hc)
    · split
      · next h => subst h; exact Memory.read_put_self b hk
      · next h => simp [Memory.read, Ne.symm h, ih hm]

/-- A read anywhere else gives what it gave before. -/
theorem Memory.read_write_of_ne (m : Memory) {a x : Nat} (b : Byte) (h : x ≠ a) : (m.write a b).read x = m.read x := by
  induction m with
  | nil => exact Memory.read_put_of_ne b h
  | cons c m ih =>
    obtain ⟨k, v⟩ := c
    simp only [Memory.write]
    split
    · exact Memory.read_put_of_ne b h
    · split
      · next hk => subst hk; rw [Memory.read_put_of_ne b h]; simp [Memory.read, Ne.symm h]
      · simp [Memory.read, ih]

theorem Memory.read_write {m : Memory} (hm : m.wf) (a x : Nat) (b : Byte) :
    (m.write a b).read x = if x = a then b else m.read x := by
  split
  · next h => rw [h, Memory.read_write_self hm]
  · next h => exact Memory.read_write_of_ne m b h

/-- A write keeps the canonical form. -/
theorem Memory.wf_write {m : Memory} (hm : m.wf) (a : Nat) (b : Byte) : (m.write a b).wf := by
  induction m with
  | nil => exact Memory.wf_put b (by simp) Memory.wf_nil
  | cons c m ih =>
    obtain ⟨k, v⟩ := c
    obtain ⟨hk, hv, hm'⟩ := Memory.wf_cons.1 hm
    simp only [Memory.write]
    split
    · next h =>
      exact Memory.wf_put b (fun c hc => by
        rcases List.mem_cons.1 hc with rfl | hc
        · exact h
        · exact h.trans (hk c hc)) hm
    · split
      · next h => subst h; exact Memory.wf_put b hk hm'
      · next h1 h2 =>
        refine Memory.wf_cons.2 ⟨fun c hc => ?_, hv, ih hm'⟩
        rcases Memory.mem_write hc with rfl | hc
        · exact Nat.lt_of_le_of_ne (Nat.le_of_not_lt h1) (Ne.symm h2)
        · exact hk c hc

/-- A write inside the range keeps the memory inside the range. -/
theorem Memory.within_write {m : Memory} {n a : Nat} (hm : m.within n) (h : a < n) (b : Byte) :
    (m.write a b).within n := by
  intro c hc
  rcases Memory.mem_write hc with rfl | hc
  · exact h
  · exact hm c hc

/-- An address outside the range reads as unlisted. -/
theorem Memory.read_of_within {m : Memory} {n a : Nat} (hm : m.within n) (h : n ≤ a) : m.read a = unlisted :=
  Memory.read_of_forall_ne fun c hc => Nat.ne_of_lt ((hm c hc).trans_le h)

/-- Two canonical memories that read alike are equal. -/
theorem Memory.ext_read {m n : Memory} (hm : m.wf) (hn : n.wf) (h : ∀ a, m.read a = n.read a) : m = n := by
  induction m generalizing n with
  | nil =>
    cases n with
    | nil => rfl
    | cons c n =>
      obtain ⟨k, v⟩ := c
      have := h k
      simp [Memory.read] at this
      exact absurd this.symm (Memory.wf_cons.1 hn).2.1
  | cons c m ih =>
    obtain ⟨k, v⟩ := c
    obtain ⟨hk, hv, hm'⟩ := Memory.wf_cons.1 hm
    cases n with
    | nil =>
      have := h k
      simp [Memory.read] at this
      exact absurd this hv
    | cons d n =>
      obtain ⟨l, w⟩ := d
      obtain ⟨hl, hw, hn'⟩ := Memory.wf_cons.1 hn
      have hkl : k = l := by
        rcases Nat.lt_trichotomy k l with hlt | heq | hlt
        · have := h k
          rw [Memory.read, if_pos rfl, Memory.read, if_neg (Nat.ne_of_gt hlt),
            Memory.read_of_forall_ne fun c hc => Nat.ne_of_gt (hlt.trans (hl c hc))] at this
          exact absurd this hv
        · exact heq
        · have := h l
          rw [Memory.read, if_neg (Nat.ne_of_gt hlt), Memory.read, if_pos rfl,
            Memory.read_of_forall_ne fun c hc => Nat.ne_of_gt (hlt.trans (hk c hc))] at this
          exact absurd this.symm hw
      subst hkl
      have hvw : v = w := by simpa [Memory.read] using h k
      subst hvw
      rw [ih hm' hn' fun a => ?_]
      by_cases ha : k = a
      · subst ha
        rw [Memory.read_of_forall_ne fun c hc => Nat.ne_of_gt (hk c hc),
          Memory.read_of_forall_ne fun c hc => Nat.ne_of_gt (hl c hc)]
      · simpa [Memory.read, ha] using h a

/-! ### Byte strings -/

theorem Memory.wf_writeBytes {m : Memory} (hm : m.wf) (a : Nat) (bytes : List Byte) : (m.writeBytes a bytes).wf := by
  induction bytes generalizing m a with
  | nil => exact hm
  | cons b bytes ih => exact ih (Memory.wf_write hm a b) (a + 1)

theorem Memory.within_writeBytes {m : Memory} {n a : Nat} (hm : m.within n) (bytes : List Byte)
    (h : a + bytes.length ≤ n) : (m.writeBytes a bytes).within n := by
  induction bytes generalizing m a with
  | nil => exact hm
  | cons b bytes ih =>
    simp only [List.length_cons] at h
    exact ih (Memory.within_write hm (by omega) b) (by omega)

/-- Reading after writing a byte string: the byte of the string inside its range, the old byte outside. -/
theorem Memory.read_writeBytes {m : Memory} (hm : m.wf) (a : Nat) (bytes : List Byte) (x : Nat) :
    (m.writeBytes a bytes).read x =
      if a ≤ x ∧ x < a + bytes.length then bytes.getD (x - a) unlisted else m.read x := by
  induction bytes generalizing m a with
  | nil => rw [if_neg (by simp)]; rfl
  | cons b bytes ih =>
    rw [Memory.writeBytes, ih (Memory.wf_write hm a b), Memory.read_write hm, List.length_cons]
    by_cases h : x = a
    · subst h
      rw [if_neg (by omega), if_pos rfl, if_pos (by omega), Nat.sub_self, List.getD_cons_zero]
    · rw [if_neg h]
      by_cases h' : a + 1 ≤ x ∧ x < a + 1 + bytes.length
      · rw [if_pos h', if_pos (by omega), show x - a = x - (a + 1) + 1 by omega, List.getD_cons_succ]
      · rw [if_neg h', if_neg (by omega)]

theorem Memory.wf_zeroFill {m : Memory} (hm : m.wf) (a n : Nat) : (m.zeroFill a n).wf := by
  induction n generalizing m a with
  | zero => exact hm
  | succ n ih => exact ih (Memory.wf_write hm a _) (a + 1)

theorem Memory.within_zeroFill {m : Memory} {k a n : Nat} (hm : m.within k) (h : a + n ≤ k) :
    (m.zeroFill a n).within k := by
  induction n generalizing m a with
  | zero => exact hm
  | succ n ih => exact ih (Memory.within_write hm (by omega) _) (by omega)

theorem Memory.read_zeroFill {m : Memory} (hm : m.wf) (a n x : Nat) :
    (m.zeroFill a n).read x = if a ≤ x ∧ x < a + n then 0x00#8 else m.read x := by
  induction n generalizing m a with
  | zero => rw [if_neg (by omega)]; rfl
  | succ n ih =>
    rw [Memory.zeroFill, ih (Memory.wf_write hm a _), Memory.read_write hm]
    by_cases h : x = a
    · subst h
      rw [if_neg (by omega), if_pos rfl, if_pos (by omega)]
    · rw [if_neg h]
      by_cases h' : a + 1 ≤ x ∧ x < a + 1 + n
      · rw [if_pos h', if_pos (by omega)]
      · rw [if_neg h', if_neg (by omega)]

/-- Zero fill of the whole range empties a canonical memory. -/
theorem Memory.zeroFill_all {m : Memory} {n : Nat} (hm : m.wf) (hn : m.within n) : m.zeroFill 0 n = [] := by
  refine Memory.ext_read (Memory.wf_zeroFill hm 0 n) Memory.wf_nil fun a => ?_
  rw [Memory.read_zeroFill hm, Memory.read_nil]
  split
  · rfl
  · exact Memory.read_of_within hn (by omega)

theorem Memory.wf_memWrite {m : Memory} (hm : m.wf) (a n v : Nat) : (m.memWrite a n v).wf :=
  Memory.wf_writeBytes hm a _

/-! ### readBytes -/

@[simp] theorem Memory.length_readBytes (m : Memory) (a n : Nat) : (m.readBytes a n).length = n := by
  induction n generalizing a with
  | zero => rfl
  | succ n ih => simp [Memory.readBytes, ih]

theorem Memory.getElem_readBytes (m : Memory) (a n i : Nat) (h : i < (m.readBytes a n).length) :
    (m.readBytes a n)[i] = m.read (a + i) := by
  induction n generalizing a i with
  | zero => simp [Memory.readBytes] at h
  | succ n ih =>
    cases i with
    | zero => rfl
    | succ i =>
      simp only [Memory.readBytes, List.getElem_cons_succ]
      rw [ih]
      congr 1
      omega

/-- Reading n bytes depends on those n bytes only. -/
theorem Memory.readBytes_congr {m k : Memory} {a n : Nat} (h : ∀ x, a ≤ x → x < a + n → m.read x = k.read x) :
    m.readBytes a n = k.readBytes a n := by
  induction n generalizing a with
  | zero => rfl
  | succ n ih =>
    rw [Memory.readBytes, Memory.readBytes, h a (by omega) (by omega), ih fun x h1 h2 => h x (by omega) (by omega)]

end Sys2Proof.Machine
end

