-- ==== Sys2Proof/Laws/State.lean ====
section
/-! SUPPORT. Laws/State.lean: what each update of a State or a Context leaves in each field, one lemma a field, so that
no proof unfolds a record update. -/

namespace Sys2Proof.Machine

/-! ### otherEng -/

@[simp] theorem otherEng_ne (e : Eng) : otherEng e ≠ e := by cases e <;> decide

@[simp] theorem ne_otherEng (e : Eng) : e ≠ otherEng e := by cases e <;> decide

@[simp] theorem otherEng_otherEng (e : Eng) : otherEng (otherEng e) = e := by cases e <;> rfl

/-- An engine that is not `e` is the other one. -/
theorem eq_otherEng_of_ne {e e' : Eng} (h : e' ≠ e) : e' = otherEng e := by
  cases e <;> cases e' <;> first | rfl | exact absurd rfl h

/-! ### ctx and setCtx -/

@[simp] theorem ctx_e32 (s : State) : s.ctx .e32 = s.e32 := rfl

@[simp] theorem ctx_e64 (s : State) : s.ctx .e64 = s.e64 := rfl

@[simp] theorem ctx_setCtx (s : State) (e : Eng) (c : Context e) : (s.setCtx e c).ctx e = c := by
  cases e <;> rfl

@[simp] theorem ctx_otherEng_setCtx (s : State) (e : Eng) (c : Context e) :
    (s.setCtx e c).ctx (otherEng e) = s.ctx (otherEng e) := by
  cases e <;> rfl

@[simp] theorem ctx_setCtx_otherEng (s : State) (e : Eng) (c : Context (otherEng e)) :
    (s.setCtx (otherEng e) c).ctx e = s.ctx e := by
  cases e <;> rfl

@[simp] theorem setCtx_ctx (s : State) (e : Eng) : s.setCtx e (s.ctx e) = s := by cases e <;> rfl

@[simp] theorem fault_setCtx (s : State) (e : Eng) (c : Context e) : (s.setCtx e c).fault = s.fault := by
  cases e <;> rfl

@[simp] theorem cause_setCtx (s : State) (e : Eng) (c : Context e) : (s.setCtx e c).cause = s.cause := by
  cases e <;> rfl

@[simp] theorem cin_setCtx (s : State) (e : Eng) (c : Context e) : (s.setCtx e c).cin = s.cin := by
  cases e <;> rfl

@[simp] theorem dout_setCtx (s : State) (e : Eng) (c : Context e) : (s.setCtx e c).dout = s.dout := by
  cases e <;> rfl

@[simp] theorem untaken_setCtx (s : State) (e : Eng) (c : Context e) : (s.setCtx e c).untaken = s.untaken := by
  cases e <;> rfl

@[simp] theorem hostTakes_setCtx (s : State) (e : Eng) (c : Context e) : (s.setCtx e c).hostTakes = s.hostTakes := by
  cases e <;> rfl

/-- A state is its two contexts, FAULT, CAUSE, the two streams and the taking of DOUT. -/
theorem State.ext_ctx {s t : State} (e : Eng) (h1 : s.ctx e = t.ctx e) (h2 : s.ctx (otherEng e) = t.ctx (otherEng e))
    (hf : s.fault = t.fault) (hc : s.cause = t.cause) (hi : s.cin = t.cin) (ho : s.dout = t.dout)
    (hu : s.untaken = t.untaken) (hh : s.hostTakes = t.hostTakes) : s = t := by
  cases e <;> cases s <;> cases t <;> simp_all [otherEng]

/-! ### raiseFault -/

@[simp] theorem ctx_raiseFault (s : State) (c : Cause) (e : Eng) : (s.raiseFault c).ctx e = s.ctx e := by
  cases e <;> rfl

@[simp] theorem e32_raiseFault (s : State) (c : Cause) : (s.raiseFault c).e32 = s.e32 := rfl

@[simp] theorem e64_raiseFault (s : State) (c : Cause) : (s.raiseFault c).e64 = s.e64 := rfl

@[simp] theorem fault_raiseFault (s : State) (c : Cause) : (s.raiseFault c).fault = true := rfl

@[simp] theorem cause_raiseFault (s : State) (c : Cause) : (s.raiseFault c).cause = c := rfl

@[simp] theorem cin_raiseFault (s : State) (c : Cause) : (s.raiseFault c).cin = s.cin := rfl

@[simp] theorem dout_raiseFault (s : State) (c : Cause) : (s.raiseFault c).dout = s.dout := rfl

@[simp] theorem untaken_raiseFault (s : State) (c : Cause) : (s.raiseFault c).untaken = s.untaken := rfl

@[simp] theorem hostTakes_raiseFault (s : State) (c : Cause) : (s.raiseFault c).hostTakes = s.hostTakes := rfl

/-! ### withCin, afterHeader and hostSend -/

@[simp] theorem ctx_withCin (s : State) (bytes : List Byte) (e : Eng) : (s.withCin bytes).ctx e = s.ctx e := by
  cases e <;> rfl

@[simp] theorem e32_withCin (s : State) (bytes : List Byte) : (s.withCin bytes).e32 = s.e32 := rfl

@[simp] theorem e64_withCin (s : State) (bytes : List Byte) : (s.withCin bytes).e64 = s.e64 := rfl

@[simp] theorem fault_withCin (s : State) (bytes : List Byte) : (s.withCin bytes).fault = s.fault := rfl

@[simp] theorem cause_withCin (s : State) (bytes : List Byte) : (s.withCin bytes).cause = s.cause := rfl

@[simp] theorem cin_withCin (s : State) (bytes : List Byte) : (s.withCin bytes).cin = bytes := rfl

@[simp] theorem dout_withCin (s : State) (bytes : List Byte) : (s.withCin bytes).dout = s.dout := rfl

@[simp] theorem untaken_withCin (s : State) (bytes : List Byte) : (s.withCin bytes).untaken = s.untaken := rfl

@[simp] theorem hostTakes_withCin (s : State) (bytes : List Byte) : (s.withCin bytes).hostTakes = s.hostTakes := rfl

@[simp] theorem ctx_hostSend (s : State) (bytes : List Byte) (e : Eng) : (s.hostSend bytes).ctx e = s.ctx e := by
  cases e <;> rfl

@[simp] theorem fault_hostSend (s : State) (bytes : List Byte) : (s.hostSend bytes).fault = s.fault := rfl

@[simp] theorem cause_hostSend (s : State) (bytes : List Byte) : (s.hostSend bytes).cause = s.cause := rfl

@[simp] theorem cin_hostSend (s : State) (bytes : List Byte) : (s.hostSend bytes).cin = s.cin ++ bytes := rfl

@[simp] theorem dout_hostSend (s : State) (bytes : List Byte) : (s.hostSend bytes).dout = s.dout := rfl

@[simp] theorem untaken_hostSend (s : State) (bytes : List Byte) : (s.hostSend bytes).untaken = s.untaken := rfl

@[simp] theorem hostTakes_hostSend (s : State) (bytes : List Byte) : (s.hostSend bytes).hostTakes = s.hostTakes := rfl

/-! ### hostTake and setHostTakes -/

/-- Everything taking digest bytes can do: the host gets the next n that wait, and n fewer wait (R296). -/
theorem hostTake_some {s t : State} {n : Nat} {bytes : List Byte} (h : s.hostTake n = some (bytes, t)) :
    n ≤ s.untaken ∧ bytes = s.untakenBytes.take n ∧ t = { s with untaken := s.untaken - n } := by
  unfold State.hostTake at h
  split at h
  · next hn => cases h; exact ⟨hn, rfl, rfl⟩
  · cases h

@[simp] theorem hostTakes_setHostTakes (s : State) (takes : Bool) : (s.setHostTakes takes).hostTakes = takes := rfl

@[simp] theorem untaken_setHostTakes_true (s : State) : (s.setHostTakes true).untaken = 0 := rfl

@[simp] theorem untaken_setHostTakes_false (s : State) : (s.setHostTakes false).untaken = s.untaken := rfl

@[simp] theorem ctx_setHostTakes (s : State) (takes : Bool) (e : Eng) : (s.setHostTakes takes).ctx e = s.ctx e := by
  cases e <;> rfl

@[simp] theorem fault_setHostTakes (s : State) (takes : Bool) : (s.setHostTakes takes).fault = s.fault := rfl

@[simp] theorem cause_setHostTakes (s : State) (takes : Bool) : (s.setHostTakes takes).cause = s.cause := rfl

@[simp] theorem cin_setHostTakes (s : State) (takes : Bool) : (s.setHostTakes takes).cin = s.cin := rfl

@[simp] theorem dout_setHostTakes (s : State) (takes : Bool) : (s.setHostTakes takes).dout = s.dout := rfl

/-! ### readStatus -/

@[simp] theorem readStatus_between {s : State} (h : s.waiting = false) (n : Nat) : s.readStatus n = s.status n := by
  simp [State.readStatus, h]

@[simp] theorem readStatus_waiting {s : State} (h : s.waiting = true) (n : Nat) : s.readStatus n = statusDuring n := by
  simp [State.readStatus, h]

/-! ### emit -/

@[simp] theorem ctx_emit (s : State) (bytes : List Byte) (e : Eng) : (s.emit bytes).ctx e = s.ctx e := by
  cases e <;> rfl

@[simp] theorem e32_emit (s : State) (bytes : List Byte) : (s.emit bytes).e32 = s.e32 := rfl

@[simp] theorem e64_emit (s : State) (bytes : List Byte) : (s.emit bytes).e64 = s.e64 := rfl

@[simp] theorem fault_emit (s : State) (bytes : List Byte) : (s.emit bytes).fault = s.fault := rfl

@[simp] theorem cause_emit (s : State) (bytes : List Byte) : (s.emit bytes).cause = s.cause := rfl

@[simp] theorem cin_emit (s : State) (bytes : List Byte) : (s.emit bytes).cin = s.cin := rfl

@[simp] theorem dout_emit (s : State) (bytes : List Byte) : (s.emit bytes).dout = s.dout ++ bytes := rfl

@[simp] theorem untaken_emit (s : State) (bytes : List Byte) :
    (s.emit bytes).untaken = if s.hostTakes then s.untaken else s.untaken + bytes.length := rfl

@[simp] theorem hostTakes_emit (s : State) (bytes : List Byte) : (s.emit bytes).hostTakes = s.hostTakes := rfl

/-- Bytes appended for a host that does not take them wait behind those that wait already (R68, R296). -/
theorem untakenBytes_emit {s : State} (bytes : List Byte) (hh : s.hostTakes = false) (hl : s.untaken ≤ s.dout.length) :
    (s.emit bytes).untakenBytes = s.untakenBytes ++ bytes := by
  have h : s.dout.length + bytes.length - (s.untaken + bytes.length) = s.dout.length - s.untaken := by omega
  simp only [State.untakenBytes, dout_emit, untaken_emit, hh, List.length_append, Bool.false_eq_true, if_false, h]
  exact List.drop_append_of_le_length (by omega)

/-! ### assertRst -/

@[simp] theorem phase_assertRst (s : State) (e : Eng) : (s.assertRst.ctx e).phase = .uninit := by cases e <;> rfl

@[simp] theorem fault_assertRst (s : State) : s.assertRst.fault = false := rfl

@[simp] theorem cause_assertRst (s : State) : s.assertRst.cause = .none := rfl

@[simp] theorem cin_assertRst (s : State) : s.assertRst.cin = s.cin := rfl

@[simp] theorem dout_assertRst (s : State) : s.assertRst.dout = s.dout := rfl

@[simp] theorem untaken_assertRst (s : State) : s.assertRst.untaken = 0 := rfl

@[simp] theorem hostTakes_assertRst (s : State) : s.assertRst.hostTakes = s.hostTakes := rfl

/-! ### releaseDatapath -/

section
variable {e : Eng} (c : Context e)

@[simp] theorem h_releaseDatapath : (releaseDatapath c).h = c.h := rfl

@[simp] theorem buf_releaseDatapath : (releaseDatapath c).buf = c.buf := rfl

@[simp] theorem bufLen_releaseDatapath : (releaseDatapath c).bufLen = c.bufLen := rfl

@[simp] theorem totLen_releaseDatapath : (releaseDatapath c).totLen = c.totLen := rfl

@[simp] theorem phase_releaseDatapath : (releaseDatapath c).phase = c.phase := rfl

@[simp] theorem variant_releaseDatapath : (releaseDatapath c).variant = c.variant := rfl

@[simp] theorem dp_releaseDatapath : (releaseDatapath c).dp = freeDatapath e c.freeCount := rfl

@[simp] theorem freeCount_releaseDatapath : (releaseDatapath c).freeCount = c.freeCount + 1 := rfl

end

end Sys2Proof.Machine
end

