-- ==== Sys2Proof/Laws/Transform.lean ====
section
/-! SUPPORT. Laws/Transform.lean: which registers TRANSFORM and the steps of UPDATE and COMPLETE around it write. -/

namespace Sys2Proof.Machine

section
variable {e : Eng} (src : List Byte)

/-! ### TRANSFORM writes H and the transient registers, nothing else (R162) -/

@[simp] theorem buf_transform (base n : Nat) (c : Context e) : (transform src base n c).buf = c.buf := by
  induction n generalizing base c with
  | zero => rfl
  | succ n ih => exact ih _ _

@[simp] theorem bufLen_transform (base n : Nat) (c : Context e) : (transform src base n c).bufLen = c.bufLen := by
  induction n generalizing base c with
  | zero => rfl
  | succ n ih => exact ih _ _

@[simp] theorem totLen_transform (base n : Nat) (c : Context e) : (transform src base n c).totLen = c.totLen := by
  induction n generalizing base c with
  | zero => rfl
  | succ n ih => exact ih _ _

@[simp] theorem phase_transform (base n : Nat) (c : Context e) : (transform src base n c).phase = c.phase := by
  induction n generalizing base c with
  | zero => rfl
  | succ n ih => exact ih _ _

@[simp] theorem variant_transform (base n : Nat) (c : Context e) : (transform src base n c).variant = c.variant := by
  induction n generalizing base c with
  | zero => rfl
  | succ n ih => exact ih _ _

@[simp] theorem freeCount_transform (base n : Nat) (c : Context e) :
    (transform src base n c).freeCount = c.freeCount := by
  induction n generalizing base c with
  | zero => rfl
  | succ n ih => exact ih _ _

end

section
variable {e : Eng} (data : List Byte) (c : Context e)

/-! ### UPDATE's early return -/

@[simp] theorem h_bufferData : (bufferData data c).h = c.h := rfl

@[simp] theorem buf_bufferData : (bufferData data c).buf = copyInBuf data c := rfl

@[simp] theorem bufLen_bufferData :
    (bufferData data c).bufLen = BitVec.ofNat 8 (c.bufLen.toNat + data.length) := rfl

@[simp] theorem totLen_bufferData : (bufferData data c).totLen = c.totLen := rfl

@[simp] theorem phase_bufferData : (bufferData data c).phase = phaseAfterUpdate c.phase data.length := rfl

@[simp] theorem variant_bufferData : (bufferData data c).variant = c.variant := rfl

@[simp] theorem dp_bufferData : (bufferData data c).dp = c.dp := rfl

@[simp] theorem freeCount_bufferData : (bufferData data c).freeCount = c.freeCount := rfl

/-! ### UPDATE when the buffer fills -/

@[simp] theorem buf_absorbData :
    (absorbData data c).buf = (copyInBuf data c).writeBytes 0
      ((data.drop (copyIn e c.bufLen.toNat data.length
        + directBlocks e c.bufLen.toNat data.length * blockSize e)).take (leftOver e c.bufLen.toNat data.length)) := by
  simp [absorbData]

@[simp] theorem bufLen_absorbData :
    (absorbData data c).bufLen = BitVec.ofNat 8 (leftOver e c.bufLen.toNat data.length) := rfl

@[simp] theorem totLen_absorbData :
    (absorbData data c).totLen =
      BitVec.ofNat 64 (c.totLen.toNat + (directBlocks e c.bufLen.toNat data.length + 1) * blockSize e) := rfl

@[simp] theorem phase_absorbData : (absorbData data c).phase = .accumulating := rfl

@[simp] theorem variant_absorbData : (absorbData data c).variant = c.variant := by simp [absorbData]

@[simp] theorem freeCount_absorbData : (absorbData data c).freeCount = c.freeCount := by simp [absorbData]

/-! ### COMPLETE -/

@[simp] theorem buf_finalTransform : (finalTransform c).buf = padBuf c := by simp [finalTransform]

@[simp] theorem bufLen_finalTransform : (finalTransform c).bufLen = c.bufLen := by simp [finalTransform]

@[simp] theorem totLen_finalTransform : (finalTransform c).totLen = c.totLen := by simp [finalTransform]

@[simp] theorem phase_finalTransform : (finalTransform c).phase = c.phase := by simp [finalTransform]

@[simp] theorem variant_finalTransform : (finalTransform c).variant = c.variant := by simp [finalTransform]

@[simp] theorem freeCount_finalTransform : (finalTransform c).freeCount = c.freeCount := by simp [finalTransform]

/-- The parameters of an engine that are powers of two, and how BUF and the last block are laid out. -/
theorem blockSize_pos (e : Eng) : 0 < blockSize e := by cases e <;> decide

theorem blockSize_le (e : Eng) : blockSize e ≤ 128 := by cases e <;> decide

theorem blockSize_dvd (e : Eng) : blockSize e ∣ 2 ^ 64 := by cases e <;> decide

theorem padMax_lt (e : Eng) : padMax e + 8 < blockSize e := by cases e <;> decide

/-- The padded message ends inside BUF and leaves room for the marker and the length (R198). -/
theorem padEnd_bounds (h : c.bufLen.toNat < blockSize e) :
    padEnd c ≤ bufSize e ∧ c.bufLen.toNat + 9 ≤ padEnd c := by
  have := padMax_lt e
  unfold padEnd finalBlocks bufSize
  split <;> constructor <;> omega

theorem leftOver_lt (e : Eng) (bufLen n : Nat) : leftOver e bufLen n < blockSize e :=
  Nat.mod_lt _ (blockSize_pos e)

/-- Every payload byte is used exactly once (R188). -/
theorem copyIn_add (e : Eng) (bufLen n : Nat) :
    copyIn e bufLen n + directBlocks e bufLen n * blockSize e + leftOver e bufLen n = n := by
  have h1 : copyIn e bufLen n ≤ n := Nat.min_le_left ..
  have h2 := Nat.div_add_mod (remaining e bufLen n) (blockSize e)
  unfold directBlocks leftOver
  rw [Nat.mul_comm] at h2
  unfold remaining at *
  omega

end

end Sys2Proof.Machine
end

