-- ==== Sys2Proof/Laws/Commands.lean ====
section
/-! SUPPORT. Laws/Commands.lean: once for each shared operation, everything it can do: the legality check, the three
commands, exec, the fetch and the step. -/

namespace Sys2Proof.Machine

/-! ### The three kinds of command -/

/-- Every command is an INIT, an UPDATE or a COMPLETE (R90). -/
theorem instr_kinds (i : Instr) :
    (∃ v, i = initInstr v) ∨ (∃ e data, i = updateInstr e data) ∨ ∃ e, i = completeInstr e := by
  cases i with
  | initSha224 => exact .inl ⟨.sha224, rfl⟩
  | initSha256 => exact .inl ⟨.sha256, rfl⟩
  | initSha384 => exact .inl ⟨.sha384, rfl⟩
  | initSha512 => exact .inl ⟨.sha512, rfl⟩
  | initSha512_224 => exact .inl ⟨.sha512_224, rfl⟩
  | initSha512_256 => exact .inl ⟨.sha512_256, rfl⟩
  | updateE32 data => exact .inr (.inl ⟨.e32, data, rfl⟩)
  | updateE64 data => exact .inr (.inl ⟨.e64, data, rfl⟩)
  | completeE32 => exact .inr (.inr ⟨.e32, rfl⟩)
  | completeE64 => exact .inr (.inr ⟨.e64, rfl⟩)

theorem exec_initInstr (v : Variant) (s : State) : exec (initInstr v) s = initCommand v s := by cases v <;> rfl

theorem exec_updateInstr (e : Eng) (data : List Byte) (s : State) :
    exec (updateInstr e data) s = updateCommand e data s := by cases e <;> rfl

theorem exec_completeInstr (e : Eng) (s : State) : exec (completeInstr e) s = completeCommand e s := by
  cases e <;> rfl

@[simp] theorem lifecycleEngine_initInstr (v : Variant) : lifecycleEngine (initInstr v) = none := by cases v <;> rfl

@[simp] theorem lifecycleEngine_updateInstr (e : Eng) (data : List Byte) :
    lifecycleEngine (updateInstr e data) = some e := by cases e <;> rfl

@[simp] theorem lifecycleEngine_completeInstr (e : Eng) : lifecycleEngine (completeInstr e) = some e := by
  cases e <;> rfl

/-! ### The legality check (R242) -/

theorem legality_faulted {s : State} (h : s.fault = true) (target : Option Eng) : legality target s = .refuse := by
  simp [legality, h]

theorem legality_none {s : State} (h : s.fault = false) : legality none s = .run := by simp [legality, h]

theorem legality_active {s : State} {e : Eng} (h : s.fault = false) (hp : (s.ctx e).phase.active) :
    legality (some e) s = .run := by
  rcases hp with hp | hp <;> simp [legality, h, hp, phaseCause]

theorem legality_uninit {s : State} {e : Eng} (h : s.fault = false) (hp : (s.ctx e).phase = .uninit) :
    legality (some e) s = .raise .notInitialised := by simp [legality, h, hp, phaseCause]

theorem legality_finalized {s : State} {e : Eng} (h : s.fault = false) (hp : (s.ctx e).phase = .finalized) :
    legality (some e) s = .raise .finalizedReuse := by simp [legality, h, hp, phaseCause]

/-- The check raises only while FAULT is 0, only for UPDATE and COMPLETE, and with cause 2 or 3. -/
theorem legality_raise {target : Option Eng} {s : State} {c : Cause} (h : legality target s = .raise c) :
    s.fault = false ∧ ∃ e, target = some e ∧
      ((s.ctx e).phase = .uninit ∧ c = .notInitialised ∨ (s.ctx e).phase = .finalized ∧ c = .finalizedReuse) := by
  unfold legality at h
  split at h
  · cases h
  · next hf =>
    refine ⟨by simpa using hf, ?_⟩
    cases target with
    | none => cases h
    | some e =>
      refine ⟨e, rfl, ?_⟩
      cases hp : (s.ctx e).phase <;> simp [hp, phaseCause] at h <;> simp [h]

/-- The check lets a command run only while FAULT is 0 and, for UPDATE and COMPLETE, in Empty or Accumulating. -/
theorem legality_run {target : Option Eng} {s : State} (h : legality target s = .run) :
    s.fault = false ∧ ∀ e, target = some e → (s.ctx e).phase.active := by
  unfold legality at h
  split at h
  · cases h
  · next hf =>
    refine ⟨by simpa using hf, fun e he => ?_⟩
    subst he
    cases hp : (s.ctx e).phase <;> simp [hp, phaseCause] at h
    · exact .inl rfl
    · exact .inr rfl

theorem legality_refuse {target : Option Eng} {s : State} (h : legality target s = .refuse) : s.fault = true := by
  cases hf : s.fault with
  | true => rfl
  | false =>
    cases target with
    | none => simp [legality, hf] at h
    | some e => cases hp : (s.ctx e).phase <;> simp [legality, hf, hp, phaseCause] at h

/-- The check reads FAULT and the PHASE of the command's engine, nothing else (R242). -/
theorem legality_congr {target : Option Eng} {s t : State} (hf : s.fault = t.fault)
    (hp : ∀ e, target = some e → (s.ctx e).phase = (t.ctx e).phase) : legality target s = legality target t := by
  cases target with
  | none => simp [legality, hf]
  | some e => simp [legality, hf, hp e rfl]

/-! ### INIT, UPDATE, COMPLETE -/

/-- Everything INIT can do (R182, R248). -/
theorem initCommand_next {v : Variant} {s t : State} (h : initCommand v s = .next t) :
    s.fault = true ∧ t = s ∨ s.fault = false ∧ t = s.setCtx v.eng (initContext v (s.ctx v.eng)) := by
  unfold initCommand at h
  split at h
  · next hl => exact .inl ⟨legality_refuse hl, by cases h; rfl⟩
  · next hl => obtain ⟨-, e, he, -⟩ := legality_raise hl; cases he
  · next hl => exact .inr ⟨(legality_run hl).1, by cases h; rfl⟩

/-- Everything UPDATE can do (R184, R186, R248). -/
theorem updateCommand_next {e : Eng} {data : List Byte} {s t : State} (h : updateCommand e data s = .next t) :
    s.fault = true ∧ t = s
    ∨ s.fault = false ∧ (s.ctx e).phase = .uninit ∧ t = s.raiseFault .notInitialised
    ∨ s.fault = false ∧ (s.ctx e).phase = .finalized ∧ t = s.raiseFault .finalizedReuse
    ∨ s.fault = false ∧ (s.ctx e).phase.active ∧ (s.ctx e).bufLen.toNat < blockSize e ∧ t = updateRun e data s := by
  unfold updateCommand at h
  split at h
  · next hl => exact .inl ⟨legality_refuse hl, by cases h; rfl⟩
  · next hl =>
    obtain ⟨hf, _, he, hp | hp⟩ := legality_raise hl <;> obtain ⟨hp, rfl⟩ := hp <;> cases he <;> cases h
    · exact .inr (.inl ⟨hf, hp, rfl⟩)
    · exact .inr (.inr (.inl ⟨hf, hp, rfl⟩))
  · next hl =>
    obtain ⟨hf, hp⟩ := legality_run hl
    split at h
    · next hb => exact .inr (.inr (.inr ⟨hf, hp e rfl, hb, by cases h; rfl⟩))
    · cases h

/-- Everything COMPLETE can do (R194, R248). -/
theorem completeCommand_next {e : Eng} {s t : State} (h : completeCommand e s = .next t) :
    s.fault = true ∧ t = s
    ∨ s.fault = false ∧ (s.ctx e).phase = .uninit ∧ t = s.raiseFault .notInitialised
    ∨ s.fault = false ∧ (s.ctx e).phase = .finalized ∧ t = s.raiseFault .finalizedReuse
    ∨ s.fault = false ∧ (s.ctx e).phase.active ∧ (s.ctx e).bufLen.toNat < blockSize e ∧ t = completeRun e s := by
  unfold completeCommand at h
  split at h
  · next hl => exact .inl ⟨legality_refuse hl, by cases h; rfl⟩
  · next hl =>
    obtain ⟨hf, _, he, hp | hp⟩ := legality_raise hl <;> obtain ⟨hp, rfl⟩ := hp <;> cases he <;> cases h
    · exact .inr (.inl ⟨hf, hp, rfl⟩)
    · exact .inr (.inr (.inl ⟨hf, hp, rfl⟩))
  · next hl =>
    obtain ⟨hf, hp⟩ := legality_run hl
    split at h
    · next hb => exact .inr (.inr (.inr ⟨hf, hp e rfl, hb, by cases h; rfl⟩))
    · cases h

/-- INIT runs whenever FAULT is 0. -/
theorem initCommand_run (v : Variant) {s : State} (hf : s.fault = false) :
    initCommand v s = .next (s.setCtx v.eng (initContext v (s.ctx v.eng))) := by
  simp [initCommand, legality_none hf]

/-- UPDATE runs whenever FAULT is 0, its engine is Empty or Accumulating, and BUFLEN is legal. -/
theorem updateCommand_run {e : Eng} (data : List Byte) {s : State} (hf : s.fault = false)
    (hp : (s.ctx e).phase.active) (hb : (s.ctx e).bufLen.toNat < blockSize e) :
    updateCommand e data s = .next (updateRun e data s) := by
  simp [updateCommand, legality_active hf hp, hb]

/-- COMPLETE runs whenever FAULT is 0, its engine is Empty or Accumulating, and BUFLEN is legal. -/
theorem completeCommand_run {e : Eng} {s : State} (hf : s.fault = false)
    (hp : (s.ctx e).phase.active) (hb : (s.ctx e).bufLen.toNat < blockSize e) :
    completeCommand e s = .next (completeRun e s) := by
  simp [completeCommand, legality_active hf hp, hb]

/-- An UPDATE that executes writes the context of its engine and nothing else (R37). -/
theorem updateRun_eq (e : Eng) (data : List Byte) (s : State) :
    updateRun e data s = s.setCtx e
      (if fillsBlock e (s.ctx e).bufLen.toNat data.length then releaseDatapath (absorbData data (s.ctx e))
       else bufferData data (s.ctx e)) := by
  simp only [updateRun]
  split <;> rfl

/-- A COMPLETE that executes writes the context of its engine and appends the digest (R194, R37). -/
theorem completeRun_eq (e : Eng) (s : State) :
    completeRun e s =
      (s.setCtx e (releaseDatapath { finalTransform (s.ctx e) with phase := .finalized })).emit
        (digestOf (finalTransform (s.ctx e))) := rfl

/-! ### exec -/

/-- Everything exec can answer as a next state: nothing while FAULT is 1, a raised fault, or one of the three effects. -/
theorem exec_next {i : Instr} {s t : State} (h : exec i s = .next t) :
    s.fault = true ∧ t = s
    ∨ s.fault = false ∧ (∃ e, lifecycleEngine i = some e ∧
        ((s.ctx e).phase = .uninit ∧ t = s.raiseFault .notInitialised
          ∨ (s.ctx e).phase = .finalized ∧ t = s.raiseFault .finalizedReuse))
    ∨ s.fault = false ∧ (∃ v, i = initInstr v ∧ t = s.setCtx v.eng (initContext v (s.ctx v.eng)))
    ∨ s.fault = false ∧ (∃ e data, i = updateInstr e data ∧ (s.ctx e).phase.active
        ∧ (s.ctx e).bufLen.toNat < blockSize e ∧ t = updateRun e data s)
    ∨ s.fault = false ∧ (∃ e, i = completeInstr e ∧ (s.ctx e).phase.active
        ∧ (s.ctx e).bufLen.toNat < blockSize e ∧ t = completeRun e s) := by
  rcases instr_kinds i with ⟨v, rfl⟩ | ⟨e, data, rfl⟩ | ⟨e, rfl⟩
  · rw [exec_initInstr] at h
    rcases initCommand_next h with h | ⟨hf, rfl⟩
    · exact .inl h
    · exact .inr (.inr (.inl ⟨hf, v, rfl, rfl⟩))
  · rw [exec_updateInstr] at h
    rcases updateCommand_next h with h | ⟨hf, hp, rfl⟩ | ⟨hf, hp, rfl⟩ | ⟨hf, hp, hb, rfl⟩
    · exact .inl h
    · exact .inr (.inl ⟨hf, e, by simp, .inl ⟨hp, rfl⟩⟩)
    · exact .inr (.inl ⟨hf, e, by simp, .inr ⟨hp, rfl⟩⟩)
    · exact .inr (.inr (.inr (.inl ⟨hf, e, data, rfl, hp, hb, rfl⟩)))
  · rw [exec_completeInstr] at h
    rcases completeCommand_next h with h | ⟨hf, hp, rfl⟩ | ⟨hf, hp, rfl⟩ | ⟨hf, hp, hb, rfl⟩
    · exact .inl h
    · exact .inr (.inl ⟨hf, e, by simp, .inl ⟨hp, rfl⟩⟩)
    · exact .inr (.inl ⟨hf, e, by simp, .inr ⟨hp, rfl⟩⟩)
    · exact .inr (.inr (.inr (.inr ⟨hf, e, rfl, hp, hb, rfl⟩)))

/-! ### The fetch and the step -/

/-- `consume` changes CIN only. -/
theorem consume_eq (s : State) (i : Instr) (rest : List Byte) :
    s.consume i rest = s.withCin s.cin.tail ∨ s.consume i rest = s.withCin rest := by
  unfold State.consume
  split
  · exact .inl rfl
  · exact .inr rfl

@[simp] theorem ctx_consume (s : State) (i : Instr) (rest : List Byte) (e : Eng) :
    (s.consume i rest).ctx e = s.ctx e := by
  rcases consume_eq s i rest with h | h <;> simp [h]

@[simp] theorem fault_consume (s : State) (i : Instr) (rest : List Byte) : (s.consume i rest).fault = s.fault := by
  rcases consume_eq s i rest with h | h <;> simp [h]

@[simp] theorem cause_consume (s : State) (i : Instr) (rest : List Byte) : (s.consume i rest).cause = s.cause := by
  rcases consume_eq s i rest with h | h <;> simp [h]

@[simp] theorem dout_consume (s : State) (i : Instr) (rest : List Byte) : (s.consume i rest).dout = s.dout := by
  rcases consume_eq s i rest with h | h <;> simp [h]

@[simp] theorem untaken_consume (s : State) (i : Instr) (rest : List Byte) :
    (s.consume i rest).untaken = s.untaken := by
  rcases consume_eq s i rest with h | h <;> simp [h]

@[simp] theorem hostTakes_consume (s : State) (i : Instr) (rest : List Byte) :
    (s.consume i rest).hostTakes = s.hostTakes := by
  rcases consume_eq s i rest with h | h <;> simp [h]

/-- While FAULT is 0 and digest bytes wait to be taken no step exists (R296, U9). -/
theorem step_untaken {s : State} (hf : s.fault = false) (hu : 0 < s.untaken) : step s = .fault .digestUntaken := by
  simp [step, fetch, hf, hu]

/-- Everything a step can answer as a next state; but for a faulted CORE, no digest byte waits to be taken. -/
theorem step_next {s t : State} (h : step s = .next t) :
    s.fault = true ∧ t = s
    ∨ s.fault = false ∧ s.untaken = 0 ∧
      (s.cin = [] ∧ t = s
      ∨ (∃ b, decode s.cin = .illegal b) ∧ t = s.afterHeader.raiseFault .illegalCommand
      ∨ (∃ e c, decode s.cin = .fragment e ∧ legality (some e) s = .raise c ∧ t = s.afterHeader.raiseFault c)
      ∨ ∃ i rest, decode s.cin = .command i rest ∧ exec i (s.consume i rest) = .next t) := by
  cases hf : s.fault with
  | true => simp [step, fetch, hf] at h; exact .inl ⟨rfl, h.symm⟩
  | false =>
    have hu : s.untaken = 0 := by
      rcases Nat.eq_zero_or_pos s.untaken with hu | hu
      · exact hu
      · rw [step_untaken hf hu] at h; cases h
    refine .inr ⟨rfl, hu, ?_⟩
    simp only [step, fetch, hf, hu, Nat.lt_irrefl, Bool.false_eq_true, if_false] at h
    cases hd : decode s.cin with
    | empty =>
      simp [hd] at h
      exact .inl ⟨decode_eq_empty.1 hd, h.symm⟩
    | illegal b => simp [hd] at h; exact .inr (.inl ⟨⟨b, rfl⟩, h.symm⟩)
    | fragment e =>
      simp only [hd, fetchFragment] at h
      cases hl : legality (some e) s with
      | refuse => rw [legality_refuse hl] at hf; cases hf
      | raise c => simp [hl] at h; exact .inr (.inr (.inl ⟨e, c, rfl, hl, h.symm⟩))
      | run => simp [hl] at h
    | command i rest => simp [hd] at h; exact .inr (.inr (.inr ⟨i, rest, rfl, h⟩))

end Sys2Proof.Machine
end

