-- ==== Sys2Proof/Laws/PerInstr.lean ====
section
/-! SUPPORT. Laws/PerInstr.lean: statements about every instruction as syntax, one lemma per constructor.
HeaderFirst: a command's encoding is its header byte, which decodes to what the command's header says and to nothing
else, followed by its operands, and has the length R106 gives (30_encoding R91, R92, R106). -/

namespace Sys2Proof.Laws.HeaderFirst

open Sys2Proof

/-- The header of an encoded command decodes to the command's header, and the encoding has the command's length. -/
def Statement (i : Instr) : Prop :=
  (encode i).head?.bind decodeHeader = some (instrHeader i) ∧ (encode i).length = instrSize i

theorem initSha224 : Statement .initSha224 := by unfold Statement; decide

theorem initSha256 : Statement .initSha256 := by unfold Statement; decide

theorem initSha384 : Statement .initSha384 := by unfold Statement; decide

theorem initSha512 : Statement .initSha512 := by unfold Statement; decide

theorem initSha512_224 : Statement .initSha512_224 := by unfold Statement; decide

theorem initSha512_256 : Statement .initSha512_256 := by unfold Statement; decide

theorem updateE32 (data : List Byte) : Statement (.updateE32 data) := by
  refine ⟨?_, by simp [encode, operandBytes, instrSize, beBytes]; omega⟩
  simp only [encode, instrHeader, List.head?_cons, Option.bind_some]
  decide

theorem updateE64 (data : List Byte) : Statement (.updateE64 data) := by
  refine ⟨?_, by simp [encode, operandBytes, instrSize, beBytes]; omega⟩
  simp only [encode, instrHeader, List.head?_cons, Option.bind_some]
  decide

theorem completeE32 : Statement .completeE32 := by unfold Statement; decide

theorem completeE64 : Statement .completeE64 := by unfold Statement; decide

end Sys2Proof.Laws.HeaderFirst
end

