-- ==== Sys2Proof/Tests/Slice0.lean ====
section
/-! SUPPORT. Tests/Slice0.lean: the smoke test of WellFormed, words written out from the spec's encodings, single steps and
vectors of spec/95_test_vectors.md, and for each statement with hypotheses a witness that meets them all. -/

namespace Sys2Proof.Machine

/- One theorem after another: each waits for the kernel, and a thread apiece would exhaust the memory limit. -/
set_option Elab.async false

/-! ### Helpers -/

/-- The three bytes of "abc". -/
def abcBytes : List Byte := [0x61#8, 0x62#8, 0x63#8]

/-- n times the letter "a". -/
def repA (n : Nat) : List Byte := List.replicate n 0x61#8

/-- The engine of v as after INIT(v) and an UPDATE of `bytes` that filled no block, the rest of the CORE at reset. -/
def holding (v : Variant) (bytes : List Byte) : State :=
  State.reset.setCtx v.eng { Context.reset v.eng with
    h := ivRow v
    buf := Memory.writeBytes [] 0 bytes
    bufLen := BitVec.ofNat 8 bytes.length
    variant := v
    phase := if bytes = [] then .empty else .accumulating }

/-- The engine of v after a COMPLETE, as far as the legality check sees it. -/
def afterComplete (v : Variant) : State :=
  State.reset.setCtx v.eng { Context.reset v.eng with h := ivRow v, variant := v, phase := .finalized }

/-- What `f` sees of a next state. -/
def after {α : Type} (f : State → α) : Host.Outcome State Fault Refusal → Option α
  | .next t => some (f t)
  | .fault _ => none
  | .refused _ => none

/-- Why a step has no next state. -/
def stopOf : Host.Outcome State Fault Refusal → Option Fault
  | .next _ => none
  | .fault r => some r
  | .refused _ => none

theorem next_of_after {o : Host.Outcome State Fault Refusal} (h : after (fun _ => ()) o = some ()) :
    ∃ t, o = .next t := by
  cases o with
  | next t => exact ⟨t, rfl⟩
  | fault r => cases h
  | refused r => cases h

/-! ### WellFormed: a payload whose length does not fit LEN is refused -/

theorem test_wellFormed_updateE32_too_long : (Instr.updateE32 (List.replicate (2 ^ 64) 0x00#8)).wellFormed = false := by
  rw [Instr.wellFormed, lenFits, List.length_replicate]; simp

theorem test_wellFormed_updateE64_too_long : (Instr.updateE64 (List.replicate (2 ^ 64) 0x00#8)).wellFormed = false := by
  rw [Instr.wellFormed, lenFits, List.length_replicate]; simp

theorem test_wellFormed_longest : (Instr.updateE32 (List.replicate (2 ^ 64 - 1) 0x00#8)).wellFormed = true := by
  rw [Instr.wellFormed, lenFits, List.length_replicate]; simp

/-! ### Decoding: words written bit by bit from R91 and the table of 95_test_vectors section 10 -/

theorem test_decode_initSha224 : decode [0b00010000#8] = .command .initSha224 [] := by decide

theorem test_decode_initSha256 : decode [0b00010001#8] = .command .initSha256 [] := by decide

theorem test_decode_initSha384 : decode [0b00010100#8] = .command .initSha384 [] := by decide

theorem test_decode_initSha512 : decode [0b00010101#8] = .command .initSha512 [] := by decide

theorem test_decode_initSha512_224 : decode [0b00010110#8] = .command .initSha512_224 [] := by decide

theorem test_decode_initSha512_256 : decode [0b00010111#8] = .command .initSha512_256 [] := by decide

theorem test_decode_updateE32 :
    decode [0b00100000#8, 0#8, 0#8, 0#8, 0#8, 0#8, 0#8, 0#8, 0b00000010#8, 0x61#8, 0x62#8, 0x30#8]
      = .command (.updateE32 [0x61#8, 0x62#8]) [0x30#8] := by decide

theorem test_decode_updateE64 :
    decode [0b00100100#8, 0#8, 0#8, 0#8, 0#8, 0#8, 0#8, 0#8, 0b00000001#8, 0x30#8]
      = .command (.updateE64 [0x30#8]) [] := by decide

theorem test_decode_completeE32 : decode [0b00110000#8, 0b00010001#8] = .command .completeE32 [0x11#8] := by decide

theorem test_decode_completeE64 : decode [0b00110100#8] = .command .completeE64 [] := by decide

/-- The illegal samples of 95_test_vectors section 10. -/
theorem test_decode_illegal :
    ∀ b ∈ [0x00#8, 0x01#8, 0x0f#8, 0x12#8, 0x13#8, 0x18#8, 0x1d#8, 0x21#8, 0x22#8, 0x25#8, 0x28#8, 0x2c#8, 0x31#8,
      0x37#8, 0x38#8, 0x40#8, 0x80#8, 0xf0#8, 0xff#8], decode [b] = .illegal b := by decide

/-- LEN decoding, 95_test_vectors section 10. -/
theorem test_len_decoding :
    beNat [0#8, 0#8, 0#8, 0#8, 0#8, 0#8, 1#8, 0#8] = 256 ∧ beNat [0#8, 0#8, 0#8, 1#8, 0#8, 0#8, 0#8, 0#8] = 2 ^ 32
    ∧ beNat [0xff#8, 0xff#8, 0xff#8, 0xff#8, 0xff#8, 0xff#8, 0xff#8, 0xff#8] = 2 ^ 64 - 1 := by decide

/-- Every row of the opcode table, as a table word. -/
theorem test_decodeTableWord :
    decodeTableWord 8 0x10 = some .initSha224 ∧ decodeTableWord 8 0x11 = some .initSha256
    ∧ decodeTableWord 8 0x14 = some .initSha384 ∧ decodeTableWord 8 0x15 = some .initSha512
    ∧ decodeTableWord 8 0x16 = some .initSha512_224 ∧ decodeTableWord 8 0x17 = some .initSha512_256
    ∧ decodeTableWord 8 0x20 = some (.updateE32 []) ∧ decodeTableWord 72 0x24 = some (.updateE64 [])
    ∧ decodeTableWord 8 0x30 = some .completeE32 ∧ decodeTableWord 8 0x34 = some .completeE64
    ∧ decodeTableWord 8 0x12 = none := by decide

theorem test_withFetchWord :
    after (fun t => (t.e64.phase, t.fault)) (step (State.reset.withFetchWord 8 0x17)) = some (.empty, false)
    ∧ after (fun t => (t.fault, t.cause)) (step (State.reset.withFetchWord 8 0x30))
        = some (true, .notInitialised) := by decide +kernel

/-- The assembler's data literals (R110). -/
theorem test_dataBytes :
    dataBytes (.cat (.ascii "ab") (.rep 2 (.hex [0x00#8, 0xff#8]))) = [0x61#8, 0x62#8, 0x00#8, 0xff#8, 0x00#8, 0xff#8] := by
  decide

/-! ### Primitives and ROMs: 95_test_vectors sections 2 and 3 -/

theorem test_sigma_e32 :
    f1E32 0x6a09e667#32 = 0xce20b47e#32 ∧ f2E32 0x6a09e667#32 = 0x55b65510#32 ∧ f3E32 0x6a09e667#32 = 0xba0cf582#32
    ∧ f4E32 0x6a09e667#32 = 0xcfe5da3c#32 ∧ f3E32 0xffffffff#32 = 0x1fffffff#32
    ∧ f4E32 0x80000000#32 = 0x00205000#32 := by decide

theorem test_sigma_e64 :
    f1E64 0x6a09e667f3bcc908#64 = 0x08c4db56aac80c2a#64 ∧ f2E64 0x6a09e667f3bcc908#64 = 0x259a6cc1643336ef#64
    ∧ f3E64 0x6a09e667f3bcc908#64 = 0x3dbae91951caa1df#64 ∧ f4E64 0x6a09e667f3bcc908#64 = 0xc8c619e73ee44510#64
    ∧ f3E64 0x0000000000000001#64 = 0x8100000000000000#64 := by decide

theorem test_ch_maj :
    ch 0xf0f0f0f0#32 0xcccccccc#32 0xaaaaaaaa#32 = 0xcacacaca#32
    ∧ maj 0xf0f0f0f0#32 0xcccccccc#32 0xaaaaaaaa#32 = 0xe8e8e8e8#32
    ∧ maj 0x510e527fade682d1#64 0x9b05688c2b3e6c1f#64 0x1f83d9abfb41bd6b#64 = 0x1b0758afab66ac5b#64
    ∧ (0xffffffff#32 + 0x00000001#32) = 0#32 := by decide

theorem test_rom_checksums :
    k32Rom.length = 64 ∧ k32Rom.foldl (· ^^^ ·) 0 = 0x95c49cf5#32 ∧ k32Rom.foldl (· + ·) 0 = 0x941d1755#32
    ∧ k64Rom.length = 80 ∧ k64Rom.foldl (· ^^^ ·) 0 = 0xd4b82f4e9d920e3b#64
    ∧ k64Rom.foldl (· + ·) 0 = 0x9bde35dffda2dffd#64 := by decide +kernel

theorem test_iv_checksums :
    ivSha224.toList.foldl (· ^^^ ·) 0 = 0x7d9c11d2#32 ∧ ivSha256.toList.foldl (· ^^^ ·) 0 = 0xc62760eb#32
    ∧ ivSha384.toList.foldl (· ^^^ ·) 0 = 0x586953057d9c11d2#64
    ∧ ivSha512.toList.foldl (· ^^^ ·) 0 = 0xc62760ebb818d235#64
    ∧ ivSha512_224.toList.foldl (· ^^^ ·) 0 = 0xd3baeb0b7e83faba#64
    ∧ ivSha512_256.toList.foldl (· ^^^ ·) 0 = 0x050f25a2543c9a7b#64 := by decide +kernel

/-- `firstPrimes` is the primes up to 409, none left out (trial division; R42). -/
theorem test_firstPrimes :
    (List.range 410).filter (fun n => 2 ≤ n && (List.range n).all fun k => k < 2 || n % k != 0) = firstPrimes := by
  decide +kernel

/-! ### TRANSFORM: 95_test_vectors section 6 -/

/-- V6.3: an edge block from the IV row of SHA-256. -/
theorem test_transform_e32_ff :
    (transform (e := .e32) (List.replicate 64 0xff#8) 0 1 (holding .sha256 []).e32).h
      = #v[0xef0c748d#32, 0xf4da50a8#32, 0xd6c43c01#32, 0x3edc3ce7#32,
          0x6c9d9fa9#32, 0xa1458ade#32, 0x56eb86c0#32, 0xa64492d2#32] := by decide +kernel

/-- V6.3: an edge block from the IV row of SHA-512. -/
theorem test_transform_e64_zero :
    (transform (e := .e64) (List.replicate 128 0x00#8) 0 1 (holding .sha512 []).e64).h
      = #v[0xcf7881d5774acbe8#64, 0x533362e0fbc78070#64, 0x0267639d87460eda#64, 0x3086cb40e85931b0#64,
          0x717dc95288a023a3#64, 0x96bab2c14ce0b5e0#64, 0x6fc4fe04eae33e0b#64, 0x91f4d80cbd668bee#64] := by
  decide +kernel

/-! ### One step of each command -/

/-- R222, R182 in Accumulating: the message is discarded and VARIANT changes. -/
theorem test_initSha224_discards :
    after (fun t => (t.e32.h[0], t.e32.buf, t.e32.bufLen, t.e32.variant, t.e32.phase))
      (exec .initSha224 (holding .sha256 abcBytes)) = some (0xc1059ed8#32, [], 0#8, .sha224, .empty) := by
  decide +kernel

theorem test_initSha256 :
    after (fun t => (t.e32.h[7], t.e32.variant, t.e32.phase, t.e64.phase)) (exec .initSha256 State.reset)
      = some (0x5be0cd19#32, .sha256, .empty, .uninit) := by decide +kernel

theorem test_initSha384 :
    after (fun t => (t.e64.h[6], t.e64.variant, t.e64.phase, t.e32.phase)) (exec .initSha384 (afterComplete .sha512))
      = some (0xdb0c2e0d64f98fa7#64, .sha384, .empty, .uninit) := by decide +kernel

theorem test_initSha512 :
    after (fun t => (t.e64.h[1], t.e64.variant)) (exec .initSha512 State.reset)
      = some (0xbb67ae8584caa73b#64, .sha512) := by decide +kernel

theorem test_initSha512_224 :
    after (fun t => (t.e64.h[3], t.e64.variant)) (exec .initSha512_224 State.reset)
      = some (0x679dd514582f9fcf#64, .sha512_224) := by decide +kernel

theorem test_initSha512_256 :
    after (fun t => (t.e64.h[5], t.e64.variant)) (exec .initSha512_256 State.reset)
      = some (0xbe5e1e2553863992#64, .sha512_256) := by decide +kernel

/-- Program P2's second UPDATE: the buffer fills, one block is transformed, one byte is kept. -/
theorem test_updateE32_fills :
    after (fun t => (t.e32.h, t.e32.bufLen, t.e32.totLen, t.e32.buf.read 0))
      (exec (.updateE32 (repA 2)) (holding .sha256 (repA 63)))
      = some (#v[0xdf5bb81c#32, 0xe81e0626#32, 0xfb45a894#32, 0x4fd40f31#32,
          0xb25e6816#32, 0xd6d499c1#32, 0xab904929#32, 0x00635e66#32], 1#8, 64#64, 0x61#8) := by decide +kernel

/-- 95_test_vectors 7.6: TOTLEN wraps. -/
theorem test_updateE32_totLen_wraps :
    after (fun t => (t.e32.totLen, t.e32.bufLen))
      (exec (.updateE32 (repA 64)) ((holding .sha256 []).setCtx .e32
        { (holding .sha256 []).e32 with totLen := 0xffffffffffffffc0#64 })) = some (0#64, 0#8) := by decide +kernel

/-- Program P6's first UPDATE: one block through BUF, one straight from the payload, 44 bytes kept. -/
theorem test_updateE64_bypass :
    after (fun t => (t.e64.h[0], t.e64.h[7], t.e64.bufLen, t.e64.totLen, t.e64.phase))
      (exec (.updateE64 (repA 300)) (holding .sha512 []))
      = some (0xb5ddfe7f6f0ec7ee#64, 0xef8d27970b16b406#64, 44#8, 256#64, .accumulating) := by decide +kernel

/-- R192 (a): an empty UPDATE leaves Empty. -/
theorem test_updateE64_empty : exec (.updateE64 []) (holding .sha384 []) = .next (holding .sha384 []) := by rfl

/-- V1.1, and BUF as in 95_test_vectors section 11, P1. -/
theorem test_completeE32_abc :
    after (fun t => (t.dout, t.e32.buf, t.e32.phase)) (exec .completeE32 (holding .sha256 abcBytes))
      = some (beBytes 32 0xba7816bf8f01cfea414140de5dae2223b00361a396177a9cb410ff61f20015ad,
          [(0, 0x61#8), (1, 0x62#8), (2, 0x63#8), (3, 0x80#8), (63, 0x18#8)], .finalized) := by decide +kernel

/-- 95_test_vectors 7.3: SHA-224 just past the padding cliff, two final blocks. -/
theorem test_completeE32_two_blocks :
    after State.dout (exec .completeE32 (holding .sha224 (repA 56)))
      = some (beBytes 28 0xd40854fc9caf172067136f2e29e1380b14626bf6f0dd06779f820dcd) := by decide +kernel

/-- Program P3: SHA-384 of 112 bytes. -/
theorem test_completeE64_two_blocks :
    after (fun t => (t.dout, t.e64.buf.readBytes 240 16)) (exec .completeE64 (holding .sha384 (repA 112)))
      = some (beBytes 48 0x187d4e07cb306103c69967bf544d0dfbe9042577599c73c330abc0cb64c61236d5ed565ee19119d8c31779a38f791fcd,
          beBytes 16 0x380) := by decide +kernel

/-- 95_test_vectors 7.3: SHA-512/256 on the padding cliff, one final block. -/
theorem test_completeE64_one_block :
    after State.dout (exec .completeE64 (holding .sha512_256 (repA 111)))
      = some (beBytes 32 0x0239e429f98d0ed61ee8e2a7c30afe98c1c3a80ce5dff62a107e9c538f7632ce) := by decide +kernel

/-- 95_test_vectors 7.6: the bit length at register level. -/
theorem test_bitLength :
    bitLength 0x40#64 1#8 = 0x208 ∧ bitLength 0x1fffffffffffffc0#64 63#8 = 0xfffffffffffffff8
    ∧ bitLength 0x2000000000000000#64 3#8 = 0x18 ∧ bitLength 0xffffffffffffffc0#64 63#8 = 0xfffffffffffffff8 := by
  decide

/-- 95_test_vectors 7.6: UPDATE.E64 with BUFLEN 127 and LEN 2^64 - 1, over the naturals. -/
theorem test_length_arithmetic :
    fillsBlock .e64 127 (2 ^ 64 - 1) = true ∧ copyIn .e64 127 (2 ^ 64 - 1) = 1
    ∧ directBlocks .e64 127 (2 ^ 64 - 1) = 2 ^ 57 - 1 ∧ leftOver .e64 127 (2 ^ 64 - 1) = 126 := by decide +kernel

/-! ### Faults and STATUS: 95_test_vectors section 11, program P5 -/

/-- P5a: UPDATE before INIT raises cause 2 and consumes the header only. -/
theorem test_fault_not_initialised :
    step (State.reset.hostSend [0x20#8, 0#8, 0#8]) =
      .next { State.reset with fault := true, cause := .notInitialised, cin := [0#8, 0#8] } := by rfl

/-- P5c: byte 12 raises cause 1. -/
theorem test_fault_illegal :
    step ((holding .sha256 []).hostSend [0x12#8]) =
      .next { holding .sha256 [] with fault := true, cause := .illegalCommand } := by rfl

/-- P5d: an empty UPDATE in Finalized raises cause 3. -/
theorem test_fault_finalized :
    exec (.updateE32 []) (afterComplete .sha224) =
      .next { afterComplete .sha224 with fault := true, cause := .finalizedReuse } := by rfl

/-- P5e: after the first fault nothing is decoded and the first cause is kept. -/
theorem test_fault_is_final :
    step { State.reset with fault := true, cause := .illegalCommand, cin := [0x11#8] } =
      .next { State.reset with fault := true, cause := .illegalCommand, cin := [0x11#8] } := by rfl

/-- A fragment stops the model's step (R107). -/
theorem test_fragment : step ((holding .sha256 []).hostSend [0x20#8, 0#8, 0#8]) = .fault .commandFragment := by rfl

/-- STATUS at the end of P5b, 0x1e9b, from the fields P5b gives. -/
theorem test_status_p5b :
    ({ State.reset with
        e32 := { Context.reset .e32 with phase := .finalized, variant := .sha256 }
        e64 := { Context.reset .e64 with phase := .accumulating, variant := .sha512 }
        fault := true
        cause := .finalizedReuse } : State).status 0 = 0x1e9b#16 := by decide

/-- STATUS at the end of P4, 0x028f. -/
theorem test_status_p4 :
    ({ State.reset with
        e32 := { Context.reset .e32 with phase := .finalized, variant := .sha224 }
        e64 := { Context.reset .e64 with phase := .finalized, variant := .sha512 } } : State).status 0 = 0x028f#16 := by
  decide

/-- R280: RST inside a COMPLETE leaves the reset state and a part of the digest V1.1. -/
theorem test_rst_during_complete :
    let t := ((holding .sha256 abcBytes).hostSend [0x30#8, 0x11#8]).rstDuring 4
    t.e32.phase = .uninit ∧ t.fault = false ∧ t.dout = [0xba#8, 0x78#8, 0x16#8, 0xbf#8] := by decide +kernel

/-! ### Taking digest bytes: the row "take digest" of R296 -/

/-- V1.1 for a host that takes nothing: 32 bytes wait, the next command does not begin, and a taking host unblocks it. -/
theorem test_complete_untaken :
    after (fun t => (t.untaken, stopOf (step t), (t.hostTake 2).map Prod.fst, after State.untaken (step (t.setHostTakes true))))
      (step (((holding .sha256 abcBytes).setHostTakes false).hostSend [0x30#8, 0x11#8]))
      = some (32, some .digestUntaken, some [0xba#8, 0x78#8], some 0) := by decide +kernel

/-- The last digest byte taken, the CORE runs the next command. -/
theorem test_hostTake_last :
    let s := { State.reset.hostSend [0x11#8] with dout := [0xba#8, 0x78#8], untaken := 1, hostTakes := false }
    (s.hostTake 1).map Prod.fst = some [0x78#8] ∧ s.hostTake 2 = none
    ∧ (s.hostTake 1).bind (fun p => after (fun t => t.e32.phase) (step p.2)) = some .empty := by decide +kernel

/-- R280: RST while a digest waits, its last two bytes not yet on DOUT. -/
theorem test_rst_during_wait :
    let s := { State.reset with dout := [0x01#8, 0xba#8, 0x78#8, 0x16#8], untaken := 3, hostTakes := false }
    (s.rstDuring 1).dout = [0x01#8, 0xba#8] ∧ (s.rstDuring 1).untaken = 0 := by decide +kernel

/-- A host's read of STATUS at the end of P4 gives 0x028f; while a digest waits, or an UPDATE for its bytes, it gives any
value (R32, R296, U8). -/
theorem test_readStatus :
    let s := { State.reset with
      e32 := { Context.reset .e32 with phase := .finalized, variant := .sha224 }
      e64 := { Context.reset .e64 with phase := .finalized, variant := .sha512 } }
    s.readStatus 0 = 0x028f#16 ∧ ({ s with dout := [0x01#8], untaken := 1 } : State).readStatus 7 = statusDuring 7
    ∧ ((holding .sha256 []).hostSend [0x20#8]).readStatus 8 = statusDuring 8 := ⟨by decide, rfl, rfl⟩

/-- R298 and R248: a run is finished when its bytes are taken and FAULT is 0, and not with FAULT 1 (P5a). -/
theorem test_finished :
    State.reset.finished ∧ State.reset.good ∧ ¬ ({ State.reset with dout := [0x01#8], untaken := 1 } : State).ended
    ∧ ({ State.reset with fault := true, cause := .notInitialised, cin := [0x11#8] } : State).ended
    ∧ ¬ ({ State.reset with fault := true, cause := .notInitialised, cin := [0x11#8] } : State).finished := by
  decide

/-! ### Witnesses: each statement's hypotheses are met by concrete values -/

theorem witness_DecodeOfEncode : (Instr.updateE64 abcBytes).wellFormed = true ∧ Instr.completeE32.wellFormed = true := by
  decide

theorem witness_EncodeOfDecode :
    decode [0x20#8, 0#8, 0#8, 0#8, 0#8, 0#8, 0#8, 0#8, 1#8, 0x61#8, 0x30#8]
      = .command (.updateE32 [0x61#8]) [0x30#8] := by decide

theorem witness_TenLegalHeaders :
    (0x13#8 : Byte) ∉ [0x10#8, 0x11#8, 0x14#8, 0x15#8, 0x16#8, 0x17#8, 0x20#8, 0x24#8, 0x30#8, 0x34#8] := by decide

/-- Seven LEN bytes; then LEN = 2 with one payload byte missing, and with all of them. -/
theorem witness_UpdateDecodesWhenWhole :
    (beBytes 7 0).length < 8 ∧ (beBytes 8 2).length = 8 ∧ [0x61#8].length < beNat (beBytes 8 2)
    ∧ ¬ [0x61#8, 0x62#8].length < beNat (beBytes 8 2) := by decide

/-- A legal command, then one that raises a fault. -/
theorem witness_StepRunsDecodedCommand :
    (State.reset.hostSend [0x11#8]).fault = false ∧ (State.reset.hostSend [0x11#8]).untaken = 0
    ∧ decode (State.reset.hostSend [0x11#8]).cin = .command .initSha256 []
    ∧ legality (lifecycleEngine .initSha256) (State.reset.hostSend [0x11#8]) = .run
    ∧ decode (State.reset.hostSend [0x30#8]).cin = .command .completeE32 []
    ∧ legality (lifecycleEngine .completeE32) (State.reset.hostSend [0x30#8]) = .raise .notInitialised := by decide

theorem witness_IllegalHeaderRaisesCauseOne :
    (State.reset.hostSend [0x12#8, 0x11#8]).fault = false ∧ (State.reset.hostSend [0x12#8, 0x11#8]).untaken = 0
    ∧ (State.reset.hostSend [0x12#8, 0x11#8]).cin = [0x12#8, 0x11#8] ∧ decodeHeader 0x12#8 = none := by decide

/-- Uninit on each engine, with an UPDATE header, whole or not, and with a COMPLETE header. -/
theorem witness_UninitRaisesNotInitialised :
    State.reset.fault = false ∧ (∀ e, (State.reset.ctx e).phase = .uninit)
    ∧ (State.reset.hostSend [0x20#8]).untaken = 0
    ∧ (State.reset.hostSend [0x20#8]).cin = headerByte (.update .e32) :: []
    ∧ (State.reset.hostSend [0x34#8, 0x11#8]).cin = headerByte (.complete .e64) :: [0x11#8]
    ∧ exec .initSha256 State.reset = .next (holding .sha256 []) := by
  refine ⟨rfl, fun e => by cases e <;> rfl, rfl, by decide, by decide, by rfl⟩

theorem witness_FinalizedRaisesReuse :
    (afterComplete .sha256).fault = false ∧ ((afterComplete .sha256).ctx .e32).phase = .finalized
    ∧ ((afterComplete .sha384).ctx .e64).phase = .finalized
    ∧ ((afterComplete .sha256).hostSend [0x20#8]).untaken = 0
    ∧ ((afterComplete .sha256).hostSend [0x20#8]).cin = headerByte (.update .e32) :: []
    ∧ ((afterComplete .sha384).hostSend [0x34#8]).cin = headerByte (.complete .e64) :: [] := by decide

/-- A header alone, and a LEN whose payload is one byte short; digest bytes that wait, of which all, one and too many are
taken. -/
theorem witness_BrokenHostDutyStops :
    ((holding .sha256 []).hostSend [0x20#8]).fault = false ∧ ((holding .sha256 []).hostSend [0x20#8]).untaken = 0
    ∧ (((holding .sha256 []).hostSend [0x20#8]).ctx .e32).phase.active
    ∧ decode ((holding .sha256 []).hostSend [0x20#8]).cin = .fragment .e32
    ∧ decode ((holding .sha512 abcBytes).hostSend (0x24#8 :: beBytes 8 2 ++ [0x61#8])).cin = .fragment .e64
    ∧ (let s := { State.reset with dout := [0x01#8, 0x02#8], untaken := 2, hostTakes := false }
      s.fault = false ∧ 0 < s.untaken ∧ 2 ≤ s.untaken ∧ 1 ≤ s.untaken ∧ s.untaken ≤ s.dout.length ∧ s.untaken < 3) := by
  decide

theorem witness_IdleKeepsState : State.reset.cin = [] ∧ State.reset.untaken = 0 := by decide

theorem witness_FaultedCoreRefuses :
    ({ State.reset with fault := true, cause := .illegalCommand, cin := [0x11#8] } : State).fault = true := by decide

/-- The two causes of a command, and the illegal header of a step. -/
theorem witness_RaisedFaultIsOnlyEffect :
    State.reset.fault = false
    ∧ after (fun t => (t.fault, t.cause)) (exec .completeE64 State.reset) = some (true, .notInitialised)
    ∧ after (fun t => (t.fault, t.cause)) (exec .completeE64 (afterComplete .sha512)) = some (true, .finalizedReuse)
    ∧ after (fun t => (t.fault, t.cause)) (step (State.reset.hostSend [0x18#8])) = some (true, .illegalCommand) := by
  decide

theorem witness_FaultCausesAreExact :
    State.reset.fault = false ∧ (afterComplete .sha224).fault = false
    ∧ after (fun t => (t.fault, t.cause)) (step (State.reset.hostSend [0xff#8])) = some (true, .illegalCommand)
    ∧ after (fun t => (t.fault, t.cause)) (step (State.reset.hostSend [0x24#8])) = some (true, .notInitialised)
    ∧ after (fun t => (t.fault, t.cause)) (step ((afterComplete .sha224).hostSend [0x30#8]))
        = some (true, .finalizedReuse) := by decide

theorem witness_StepKeepsInvariant :
    ((holding .sha256 (repA 63)).hostSend [0x30#8]).Inv
    ∧ ∃ t, step ((holding .sha256 (repA 63)).hostSend [0x30#8]) = .next t :=
  ⟨by decide +kernel, next_of_after (by decide +kernel)⟩

/-- A state that meets a fragment and one whose digest bytes wait. -/
theorem witness_NoOtherStop :
    ((holding .sha512 (repA 127)).hostSend [0x24#8]).Inv
    ∧ step ((holding .sha512 (repA 127)).hostSend [0x24#8]) = .fault .commandFragment
    ∧ ({ State.reset with dout := [0x01#8], untaken := 1, hostTakes := false } : State).Inv
    ∧ step { State.reset with dout := [0x01#8], untaken := 1, hostTakes := false } = .fault .digestUntaken :=
  ⟨by decide +kernel, by rfl, by decide, by rfl⟩

/-- BUFLEN at B on each engine, a state no run reaches. -/
theorem witness_BufLenOutOfRangeStops :
    let s := (holding .sha256 []).setCtx .e32 { (holding .sha256 []).e32 with bufLen := 64#8 }
    let s' := (holding .sha512 []).setCtx .e64 { (holding .sha512 []).e64 with bufLen := 128#8 }
    s.fault = false ∧ (s.ctx .e32).phase.active ∧ blockSize .e32 ≤ (s.ctx .e32).bufLen.toNat
    ∧ s'.fault = false ∧ (s'.ctx .e64).phase.active ∧ blockSize .e64 ≤ (s'.ctx .e64).bufLen.toNat := by decide

/-- The state every INIT statement holds of: here one that was used before. -/
theorem witness_InitEffects :
    (holding .sha256 (repA 63)).Inv ∧ (holding .sha256 (repA 63)).fault = false
    ∧ (afterComplete .sha384).Inv ∧ (afterComplete .sha384).fault = false := by decide +kernel

theorem witness_InitSha224Effect :
    State.reset.Inv ∧ State.reset.fault = false ∧ (holding .sha224 []).e32.variant = .sha224 := by decide

theorem witness_InitSha256Effect :
    State.reset.Inv ∧ State.reset.fault = false ∧ (holding .sha256 []).e32.variant = .sha256 := by decide

theorem witness_InitSha384Effect :
    State.reset.Inv ∧ State.reset.fault = false ∧ (holding .sha384 []).e64.variant = .sha384 := by decide

theorem witness_InitSha512Effect :
    State.reset.Inv ∧ State.reset.fault = false ∧ (holding .sha512 []).e64.variant = .sha512 := by decide

theorem witness_InitSha512t224Effect :
    State.reset.Inv ∧ State.reset.fault = false ∧ (holding .sha512_224 []).e64.variant = .sha512_224 := by decide

theorem witness_InitSha512t256Effect :
    State.reset.Inv ∧ State.reset.fault = false ∧ (holding .sha512_256 []).e64.variant = .sha512_256 := by decide

theorem witness_InitForgetsHistory :
    (holding .sha256 (repA 63)).Inv ∧ (afterComplete .sha224).Inv ∧ (holding .sha256 (repA 63)).fault = false
    ∧ (afterComplete .sha224).fault = false := by decide +kernel

/-- Both engines, both active phases, BUFLEN 0 and B - 1. -/
theorem witness_UpdateAbsorbsWholeBlocks :
    (holding .sha256 []).Inv ∧ (holding .sha256 []).fault = false ∧ ((holding .sha256 []).ctx .e32).phase.active
    ∧ (holding .sha512 (repA 127)).Inv ∧ (holding .sha512 (repA 127)).fault = false
    ∧ ((holding .sha512 (repA 127)).ctx .e64).phase.active := by decide +kernel

/-- A payload that leaves one byte of room, and one that fills the buffer exactly. -/
theorem witness_UpdateStoresExactly :
    (holding .sha256 (repA 61)).Inv ∧ (holding .sha256 (repA 61)).fault = false
    ∧ ((holding .sha256 (repA 61)).ctx .e32).phase.active
    ∧ ((holding .sha256 (repA 61)).ctx .e32).bufLen.toNat + [0x62#8, 0x63#8].length < blockSize .e32
    ∧ blockSize .e32 ≤ ((holding .sha256 (repA 61)).ctx .e32).bufLen.toNat + abcBytes.length := by decide +kernel

theorem witness_ShortUpdateRunsNoTransform :
    (holding .sha512 (repA 124)).fault = false ∧ ((holding .sha512 (repA 124)).ctx .e64).phase.active
    ∧ ((holding .sha512 (repA 124)).ctx .e64).bufLen.toNat + abcBytes.length < blockSize .e64 := by decide +kernel

theorem witness_EmptyUpdateChangesNothing :
    (holding .sha256 (repA 63)).fault = false ∧ ((holding .sha256 (repA 63)).ctx .e32).phase.active
    ∧ ((holding .sha256 (repA 63)).ctx .e32).bufLen.toNat < blockSize .e32 := by decide +kernel

theorem witness_UpdatesConcatenate :
    (holding .sha384 (repA 127)).Inv ∧ (holding .sha384 (repA 127)).fault = false
    ∧ ((holding .sha384 (repA 127)).ctx .e64).phase.active := by decide +kernel

theorem witness_UpdateIgnoresVariant :
    ∃ t, exec (updateInstr .e64 (repA 2)) (holding .sha512_256 (repA 127)) = .next t :=
  next_of_after (by decide +kernel)

/-- BUFLEN at PADMAX and one past it, on both engines. -/
theorem witness_CompleteEmitsDigest :
    (holding .sha256 (repA 55)).Inv ∧ (holding .sha256 (repA 55)).fault = false
    ∧ ((holding .sha256 (repA 55)).ctx .e32).phase.active
    ∧ ((holding .sha256 (repA 55)).ctx .e32).bufLen.toNat ≤ padMax .e32
    ∧ (holding .sha512 (repA 112)).Inv ∧ (holding .sha512 (repA 112)).fault = false
    ∧ ((holding .sha512 (repA 112)).ctx .e64).phase.active
    ∧ ¬ ((holding .sha512 (repA 112)).ctx .e64).bufLen.toNat ≤ padMax .e64 := by decide +kernel

/-- The same for the padding writes: BUFLEN at PADMAX + 1 and at B - 1. -/
theorem witness_CompletePadsBuffer :
    (holding .sha256 (repA 56)).Inv ∧ (holding .sha256 (repA 56)).fault = false
    ∧ ((holding .sha256 (repA 56)).ctx .e32).phase.active
    ∧ ¬ ((holding .sha256 (repA 56)).ctx .e32).bufLen.toNat ≤ padMax .e32
    ∧ (holding .sha512 (repA 127)).Inv ∧ (holding .sha512 (repA 127)).fault = false
    ∧ ((holding .sha512 (repA 127)).ctx .e64).phase.active := by decide +kernel

theorem witness_SerializeIsBigEndian : 0 < wordBytes .e32 ∧ 3 < wordBytes .e32 ∧ 7 < wordBytes .e64 := by decide

/-- A step that appends nothing and one that appends a digest. -/
theorem witness_OnlyCompleteAppends :
    (State.reset.hostSend [0x11#8]).Inv ∧ (∃ t, step (State.reset.hostSend [0x11#8]) = .next t)
    ∧ ((holding .sha224 abcBytes).hostSend [0x30#8]).Inv
    ∧ ∃ t, step ((holding .sha224 abcBytes).hostSend [0x30#8]) = .next t :=
  ⟨by decide +kernel, next_of_after (by decide +kernel), by decide +kernel, next_of_after (by decide +kernel)⟩

/-- A host that takes bytes as they come, and one that does not. -/
theorem witness_HashRunGivesReferenceDigest :
    State.reset.Inv ∧ State.reset.fault = false ∧ State.reset.untaken = 0 ∧ State.reset.cin = []
    ∧ (State.reset.setHostTakes false).Inv ∧ (State.reset.setHostTakes false).untaken = 0 := by decide

/-- A message in two chunks, and chunks that make the empty message. -/
theorem witness_StreamingEquivalence :
    (afterComplete .sha256).Inv ∧ (afterComplete .sha256).fault = false ∧ (afterComplete .sha256).untaken = 0
    ∧ ([repA 63, repA 2] : List (List Byte)).flatten = repA 65 ∧ ([[], []] : List (List Byte)).flatten = [] := by
  decide +kernel

/-- The empty message and one at a block's end, and a command to the other engine. -/
theorem witness_ContextHoldsMessage :
    State.reset.Inv ∧ State.reset.fault = false
    ∧ (holding .sha256 []).Inv ∧ HoldsMessage .sha256 ((holding .sha256 []).ctx .e32) []
    ∧ (holding .sha512 (repA 127)).Inv ∧ (holding .sha512 (repA 127)).fault = false
    ∧ HoldsMessage .sha512 ((holding .sha512 (repA 127)).ctx .e64) (repA 127)
    ∧ addressedEngine .initSha256 ≠ Variant.sha512.eng
    ∧ ∃ t, exec .initSha256 (holding .sha512 (repA 127)) = .next t := by
  refine ⟨by decide, by decide, by decide +kernel, by decide +kernel, by decide +kernel, by decide +kernel,
    by decide +kernel, by decide, next_of_after (by decide +kernel)⟩

theorem witness_TransformCounts :
    0 < blockSize .e32 ∧ blockSize .e32 ≤ 0 + 64 ∧ 127 < blockSize .e64 ∧ blockSize .e64 ≤ 127 + 1 := by decide

/-- A state in each PHASE, on the engine in question. -/
theorem witness_PhaseTransitions :
    State.reset.Inv ∧ State.reset.fault = false ∧ (State.reset.ctx .e64).phase = .uninit
    ∧ (holding .sha256 []).Inv ∧ ((holding .sha256 []).ctx .e32).phase = .empty
    ∧ (holding .sha512 abcBytes).Inv ∧ ((holding .sha512 abcBytes).ctx .e64).phase = .accumulating
    ∧ (afterComplete .sha224).Inv ∧ ((afterComplete .sha224).ctx .e32).phase = .finalized :=
  ⟨by decide, by decide, by decide, by decide, by decide, by decide, by decide, by decide, by decide⟩

/-- The other hypotheses of the same statement: a variant of the engine, a payload that is not empty. -/
theorem witness_PhaseTransitions_operands :
    (holding .sha256 []).fault = false ∧ (holding .sha512 abcBytes).fault = false ∧ (afterComplete .sha224).fault = false
    ∧ Variant.sha384.eng = .e64 ∧ Variant.sha224.eng = .e32 ∧ abcBytes ≠ [] := by decide

theorem witness_OnlyInitWritesVariant :
    after (fun t => (t.ctx .e32).variant) (step ((holding .sha256 []).hostSend [0x10#8])) = some .sha224
    ∧ ((holding .sha256 []).ctx .e32).variant = .sha256 := by decide +kernel

theorem witness_StatusWordLayout :
    (holding .sha256 []).e32.phase ≠ .uninit ∧ (holding .sha512 []).e64.phase ≠ .uninit
    ∧ (holding .sha256 []).waiting = false := by decide

theorem witness_CinConsumedFromFront : ∃ t, step (State.reset.hostSend [0x11#8, 0x30#8]) = .next t :=
  next_of_after (by decide +kernel)

/-- Two states that agree on E32, FAULT and CAUSE and differ on E64. -/
theorem witness_EnginesShareNothing :
    State.reset.ctx (addressedEngine .initSha224) = (holding .sha512 abcBytes).ctx (addressedEngine .initSha224)
    ∧ State.reset.fault = (holding .sha512 abcBytes).fault ∧ State.reset.cause = (holding .sha512 abcBytes).cause
    ∧ ∃ t, exec .initSha224 State.reset = .next t :=
  ⟨by decide, by decide, by decide, next_of_after (by decide +kernel)⟩

theorem witness_EnginesCommute :
    addressedEngine .initSha512 = otherEng (addressedEngine (.updateE32 abcBytes))
    ∧ after State.fault (exec (.updateE32 abcBytes) (holding .sha256 [])) = some false
    ∧ after State.fault (exec .initSha512 (holding .sha256 [])) = some false
    ∧ (Instr.updateE32 abcBytes ≠ completeInstr .e32 ∨ Instr.initSha512 ≠ completeInstr .e64) := by decide +kernel

/-- Two states that differ in the temporaries and in a byte of BUF above BUFLEN. -/
theorem witness_HiddenStateUnobservable :
    let s := (holding .sha256 abcBytes).hostSend [0x30#8]
    let s' := s.setCtx .e32 { s.e32 with buf := s.e32.buf.write 3 0xff#8, dp := { s.e32.dp with t1 := 1, j := 5 } }
    s.Inv ∧ s'.Inv ∧ s ≠ s' ∧ (∀ e, SameVisible (s.ctx e) (s'.ctx e))
    ∧ (s.fault = s'.fault ∧ s.cause = s'.cause ∧ s.cin = s'.cin ∧ s.dout = s'.dout)
    ∧ (s.untaken = s'.untaken ∧ s.hostTakes = s'.hostTakes) ∧ after (fun _ => ()) (step s) = some () := by
  refine ⟨by decide +kernel, by decide +kernel, by decide +kernel, fun e => ?_, by decide +kernel, by decide +kernel,
    by decide +kernel⟩
  cases e <;> decide +kernel

/-- Two sources that hold the same block at different offsets, from two contexts with the same H. -/
theorem witness_TransformComposes :
    (holding .sha256 []).e32.h = (holding .sha256 abcBytes).e32.h
    ∧ ((repA 64).drop 0).take (1 * blockSize .e32) = ((0x00#8 :: repA 64).drop 1).take (1 * blockSize .e32) := by
  decide +kernel

theorem witness_ScheduleRecurrence : 15 < 16 ∧ 16 ≤ 16 ∧ 63 < Eng.e32.rounds ∧ 79 < Eng.e64.rounds := by decide

theorem witness_RotrMovesBits : 0 < 1 ∧ 1 < 32 ∧ 63 < 64 ∧ 31 < 32 ∧ 0 < 63 := by decide

theorem witness_ShrIsFloorDivision : 0 < 3 ∧ 3 < 32 ∧ (7#32).toNat < 2 ^ 3 := by decide

theorem witness_ChooseSelectsBits : 0 < 32 ∧ 31 < 32 := by decide

theorem witness_MajorityOfBits : 0 < 64 ∧ 63 < 64 := by decide

theorem witness_SigmasAreLinear : 0 < 31 ∧ 31 < 32 ∧ 0 < 2 ∧ 2 < 32 ∧ (31 + 2) % 32 ≠ 0 := by decide

theorem witness_RoundConstantsAreCubeRoots : 79 < 80 ∧ 63 < 64 := by decide

end Sys2Proof.Machine
end

/-! PROOFS. The schedule, the rounds and TRANSFORM as functions of H and of the bytes read (41_transform R152 to R164). -/

namespace Sys2Proof.Machine

/-! ### The message schedule (R152, R154) -/

theorem sixteen_le_rounds (e : Eng) : 16 ≤ e.rounds := by cases e <;> decide

theorem blockSize_eq_wordBytes (e : Eng) : blockSize e = 16 * wordBytes e := by cases e <;> rfl

theorem wRead_setIfInBounds {e : Eng} (w : Vector (Word e) e.rounds) (i k : Nat) (x : Word e) (hi : i < e.rounds) :
    wRead (w.setIfInBounds i x) k = if k = i then x else wRead w k := by
  unfold wRead
  by_cases hk : k = i
  · subst hk
    simp [hi]
  · simp [hk, Vector.getElem?_setIfInBounds_ne (Ne.symm hk)]

/-- Writing the words 0 to n-1 leaves each of them written and every other word as it was. -/
theorem wRead_foldl_setIfInBounds {e : Eng} (f : Nat → Word e) (w : Vector (Word e) e.rounds) {n : Nat}
    (hn : n ≤ e.rounds) (k : Nat) :
    wRead ((List.range n).foldl (fun w i => w.setIfInBounds i (f i)) w) k = if k < n then f k else wRead w k := by
  induction n with
  | zero => simp
  | succ n ih =>
    rw [List.range_succ, List.foldl_append, List.foldl_cons, List.foldl_nil, wRead_setIfInBounds _ _ _ _ hn,
      ih (Nat.le_of_succ_le hn)]
    by_cases hk : k = n
    · subst hk; simp
    · have : k < n + 1 ↔ k < n := by omega
      simp [hk, this]

/-- Reading a word inside a block reads it from where the block was cut out. -/
theorem memRead_block {e : Eng} (src : List Byte) (o : Nat) {i : Nat} (hi : i < 16) :
    memRead ((src.drop o).take (blockSize e)) (wordBytes e * i) (wordBytes e)
      = memRead src (o + wordBytes e * i) (wordBytes e) := by
  have hfit : wordBytes e + wordBytes e * i ≤ blockSize e := by
    rw [blockSize_eq_wordBytes]
    calc wordBytes e + wordBytes e * i = wordBytes e * (i + 1) := by rw [Nat.mul_succ, Nat.add_comm]
      _ ≤ wordBytes e * 16 := Nat.mul_le_mul_left _ hi
      _ = 16 * wordBytes e := Nat.mul_comm ..
  unfold memRead
  rw [List.drop_take, List.take_take, List.drop_drop, Nat.min_eq_left (by omega)]

@[simp] theorem length_blockWords (e : Eng) (block : List Byte) : (blockWords e block).length = 16 := by
  simp [blockWords]

theorem length_extendSchedule (e : Eng) (n : Nat) (ws : List (Word e)) :
    (extendSchedule e n ws).length = ws.length + n := by
  induction n generalizing ws with
  | zero => rfl
  | succ n ih => rw [extendSchedule, ih, List.length_append, List.length_singleton]; omega

@[simp] theorem length_schedule (e : Eng) (block : List Byte) : (schedule e block).length = e.rounds := by
  have := sixteen_le_rounds e
  rw [schedule, length_extendSchedule, length_blockWords]
  omega

/-- UNPACK writes the sixteen words of the block (R152). -/
theorem wRead_unpack {e : Eng} (src : List Byte) (o : Nat) (d : Datapath e) {i : Nat} (hi : i < 16) :
    wRead (unpack src o d).w i = (blockWords e ((src.drop o).take (blockSize e))).getD i 0 := by
  simp only [unpack]
  rw [wRead_foldl_setIfInBounds _ _ (sixteen_le_rounds e), if_pos hi]
  simp [blockWords, hi, memRead_block]

/-- EXPAND's loop from word L on agrees with the list that `extendSchedule` makes of the L words before it (R154). -/
theorem wRead_expandLoop {e : Eng} (n : Nat) (w : Vector (Word e) e.rounds) (ws : List (Word e))
    (hL : 16 ≤ ws.length) (hn : ws.length + n ≤ e.rounds) (hw : ∀ i, i < ws.length → wRead w i = ws.getD i 0) :
    ∀ i, i < ws.length + n →
      wRead ((List.range' ws.length n).foldl (fun w i => w.setIfInBounds i (expandWord w i)) w) i
        = (extendSchedule e n ws).getD i 0 := by
  induction n generalizing w ws with
  | zero => exact hw
  | succ n ih =>
    have hword : expandWord w ws.length = f4 e (ws.getD (ws.length - 2) 0) + ws.getD (ws.length - 7) 0
        + f3 e (ws.getD (ws.length - 15) 0) + ws.getD (ws.length - 16) 0 := by
      rw [expandWord, hw _ (by omega), hw _ (by omega), hw _ (by omega), hw _ (by omega)]
    intro i hi
    rw [List.range'_succ, List.foldl_cons, extendSchedule, ← hword]
    have hlen : (ws ++ [expandWord w ws.length]).length = ws.length + 1 := by simp
    have := ih (w.setIfInBounds ws.length (expandWord w ws.length)) (ws ++ [expandWord w ws.length])
      (by omega) (by omega) (fun k hk => ?_) i (by omega)
    · rwa [hlen] at this
    · rw [wRead_setIfInBounds _ _ _ _ (by omega)]
      by_cases hkL : k = ws.length
      · subst hkL; simp
      · have hk' : k < ws.length := by omega
        rw [if_neg hkL, hw k hk', List.getD_append _ _ _ _ hk']

/-- After UNPACK and EXPAND the register w holds the schedule of the block read (R152, R154). -/
theorem wRead_expand_unpack {e : Eng} (src : List Byte) (o : Nat) (d : Datapath e) {i : Nat} (hi : i < e.rounds) :
    wRead (expand (unpack src o d)).w i = (schedule e ((src.drop o).take (blockSize e))).getD i 0 := by
  have h16 := sixteen_le_rounds e
  have := wRead_expandLoop (e.rounds - 16) (unpack src o d).w (blockWords e ((src.drop o).take (blockSize e)))
    (by simp) (by simp; omega) (fun k hk => wRead_unpack src o d (by simpa using hk)) i (by simp; omega)
  rwa [length_blockWords] at this

/-! ### The rounds (R158) -/

/-- The loop of rounds from round j on reads the round constants and schedule words from j on, and nothing else. -/
theorem v_roundLoop {e : Eng} (n j : Nat) (d : Datapath e) (ks ws : List (Word e)) (hk : ks.length = n)
    (hw : ws.length = n) (hks : ∀ i, i < n → kWord e (j + i) = ks.getD i 0)
    (hws : ∀ i, i < n → wRead d.w (j + i) = ws.getD i 0) :
    ((List.range' j n).foldl (fun d j => roundAt j d) d).v = refRounds e ks ws d.v := by
  induction n generalizing j d ks ws with
  | zero => obtain rfl := List.eq_nil_of_length_eq_zero hk; rfl
  | succ n ih =>
    obtain ⟨k, ks, rfl⟩ := List.exists_cons_of_length_eq_add_one hk
    obtain ⟨w, ws, rfl⟩ := List.exists_cons_of_length_eq_add_one hw
    have hk0 : kWord e j = k := hks 0 (by omega)
    have hw0 : wRead d.w j = w := hws 0 (by omega)
    have hround : (roundAt j d).v = rotateV d.v (roundT1 d.v k w) (roundT2 d.v) := by
      rw [← hk0, ← hw0]; rfl
    rw [List.range'_succ, List.foldl_cons, ih (j + 1) (roundAt j d) ks ws (by simpa using hk) (by simpa using hw),
      hround]
    · rfl
    · intro i hi
      have := hks (i + 1) (by omega)
      rwa [List.getD_cons_succ, show j + (i + 1) = j + 1 + i by omega] at this
    · intro i hi
      have := hws (i + 1) (by omega)
      rwa [List.getD_cons_succ, show j + (i + 1) = j + 1 + i by omega] at this

theorem length_kRom (e : Eng) : (kRom e).length = e.rounds := by cases e <;> rfl

/-- The rounds are the reference's rounds over the K ROM and the words in w. -/
theorem v_rounds {e : Eng} (d : Datapath e) (ws : List (Word e)) (hlen : ws.length = e.rounds)
    (hws : ∀ i, i < e.rounds → wRead d.w i = ws.getD i 0) :
    (rounds d).v = refRounds e (kRom e) ws d.v := by
  unfold rounds
  rw [List.range_eq_range']
  exact v_roundLoop e.rounds 0 d (kRom e) ws (length_kRom e) hlen (fun i _ => by rw [Nat.zero_add]; rfl)
    (fun i hi => by rw [Nat.zero_add]; exact hws i hi)

/-! ### TRANSFORM (R162, R164) -/

/-- One block of TRANSFORM is the one-block function on the block read (R164). -/
theorem h_transformBlock {e : Eng} (src : List Byte) (o : Nat) (c : Context e) :
    (transformBlock src o c).h = compress e c.h ((src.drop o).take (blockSize e)) := by
  have hv : (runDatapath src o c.h c.dp).v
      = refRounds e (kRom e) (schedule e ((src.drop o).take (blockSize e))) c.h :=
    v_rounds (loadV c.h (expand (unpack src o c.dp))) _ (length_schedule ..)
      fun i hi => wRead_expand_unpack src o c.dp hi
  simp only [transformBlock, compress, hv]

/-- H after a TRANSFORM is that of absorbing the blocks read, in order (R162, R164). -/
theorem h_transform {e : Eng} (src : List Byte) (base n : Nat) (c : Context e) :
    (transform src base n c).h = absorbBlocks e n c.h (src.drop base) := by
  induction n generalizing base c with
  | zero => rfl
  | succ n ih => rw [transform, ih, h_transformBlock, absorbBlocks, List.drop_drop]

/-! ### Absorbing blocks -/

/-- Absorbing m blocks and then n more goes on where the first m end. -/
theorem absorbBlocks_add (e : Eng) (m n : Nat) (h : Vector (Word e) 8) (bytes : List Byte) :
    absorbBlocks e (m + n) h bytes = absorbBlocks e n (absorbBlocks e m h bytes) (bytes.drop (m * blockSize e)) := by
  induction m generalizing h bytes with
  | zero => simp [absorbBlocks]
  | succ m ih =>
    rw [Nat.succ_add, absorbBlocks, ih, absorbBlocks, List.drop_drop, Nat.succ_mul, Nat.add_comm (blockSize e)]

/-- Absorbing n blocks reads the first n blocks of the byte string only. -/
theorem absorbBlocks_congr {e : Eng} {n : Nat} (h : Vector (Word e) 8) {bytes bytes' : List Byte}
    (heq : bytes.take (n * blockSize e) = bytes'.take (n * blockSize e)) :
    absorbBlocks e n h bytes = absorbBlocks e n h bytes' := by
  induction n generalizing h bytes bytes' with
  | zero => rfl
  | succ n ih =>
    rw [Nat.succ_mul] at heq
    have hhead : bytes.take (blockSize e) = bytes'.take (blockSize e) := by
      simpa [List.take_take] using congrArg (List.take (blockSize e)) heq
    have htail : (bytes.drop (blockSize e)).take (n * blockSize e)
        = (bytes'.drop (blockSize e)).take (n * blockSize e) := by
      simpa [List.drop_take] using congrArg (List.drop (blockSize e)) heq
    rw [absorbBlocks, absorbBlocks, hhead, ih _ htail]

/-- Bytes behind the blocks absorbed do not matter. -/
theorem absorbBlocks_append {e : Eng} {n : Nat} (h : Vector (Word e) 8) {bytes : List Byte} (tail : List Byte)
    (hlen : n * blockSize e ≤ bytes.length) : absorbBlocks e n h (bytes ++ tail) = absorbBlocks e n h bytes :=
  absorbBlocks_congr h (List.take_append_of_le_length hlen)

end Sys2Proof.Machine

/-! PROOFS. What UPDATE and COMPLETE leave in the context of their engine, register by register, as functions of the
registers that R38 calls visible (42_streaming R186, R192, R194 to R203). -/

namespace Sys2Proof.Machine

/-! ### Byte strings read from BUF -/

theorem Memory.readBytes_add (m : Memory) (a n k : Nat) :
    m.readBytes a (n + k) = m.readBytes a n ++ m.readBytes (a + n) k := by
  induction n generalizing a with
  | zero => simp [Memory.readBytes]
  | succ n ih => rw [Nat.succ_add, Memory.readBytes, ih, Memory.readBytes, Nat.succ_add_eq_add_succ]; rfl

/-- Reading n bytes that are all the same. -/
theorem Memory.readBytes_eq_replicate {m : Memory} {a n : Nat} {b : Byte}
    (h : ∀ x, a ≤ x → x < a + n → m.read x = b) : m.readBytes a n = List.replicate n b := by
  induction n generalizing a with
  | zero => rfl
  | succ n ih =>
    rw [Memory.readBytes, h a (by omega) (by omega), ih fun x h1 h2 => h x (by omega) (by omega),
      List.replicate_succ]

/-- A byte string that has been written reads back. -/
theorem Memory.readBytes_writeBytes_self {m : Memory} (hm : m.wf) (a : Nat) (bytes : List Byte) :
    (m.writeBytes a bytes).readBytes a bytes.length = bytes := by
  refine List.ext_getElem (by simp) fun i h1 h2 => ?_
  rw [Memory.getElem_readBytes, Memory.read_writeBytes hm, if_pos (by omega), Nat.add_sub_cancel_left,
    List.getD_eq_getElem _ _ h2]

/-- Writing from address a on leaves the bytes below a. -/
theorem Memory.readBytes_writeBytes_below {m : Memory} (hm : m.wf) (a : Nat) (bytes : List Byte) :
    (m.writeBytes a bytes).readBytes 0 a = m.readBytes 0 a :=
  Memory.readBytes_congr fun x _ hx => by rw [Memory.read_writeBytes hm, if_neg (by omega)]

/-- The bytes up to the end of a byte string that has been written: those below it, then the string. -/
theorem Memory.readBytes_writeBytes {m : Memory} (hm : m.wf) (a : Nat) (bytes : List Byte) :
    (m.writeBytes a bytes).readBytes 0 (a + bytes.length) = m.readBytes 0 a ++ bytes := by
  rw [Memory.readBytes_add, Nat.zero_add, Memory.readBytes_writeBytes_below hm, Memory.readBytes_writeBytes_self hm]

@[simp] theorem length_pendingBytes {e : Eng} (c : Context e) : (pendingBytes c).length = c.bufLen.toNat :=
  Memory.length_readBytes ..

@[simp] theorem length_beBytes (n v : Nat) : (beBytes n v).length = n := by simp [beBytes]

theorem toNat_ofNat_of_lt_blockSize {e : Eng} {n : Nat} (h : n < blockSize e) : (BitVec.ofNat 8 n).toNat = n := by
  have := blockSize_le e
  rw [BitVec.toNat_ofNat, Nat.mod_eq_of_lt (by omega)]

/-! ### The context after UPDATE (R186) -/

/-- The context that an UPDATE which executes leaves on its engine. -/
def updateContext {e : Eng} (data : List Byte) (c : Context e) : Context e :=
  if fillsBlock e c.bufLen.toNat data.length then releaseDatapath (absorbData data c) else bufferData data c

/-- UPDATE writes `updateContext` to its engine and nothing else (R37). -/
theorem updateRun_eq_setCtx (e : Eng) (data : List Byte) (s : State) :
    updateRun e data s = s.setCtx e (updateContext data (s.ctx e)) := updateRun_eq e data s

section UpdateArithmetic
variable {e : Eng} {bl n : Nat}

theorem fillsBlock_eq_true : fillsBlock e bl n = true ↔ blockSize e ≤ bl + n := by simp [fillsBlock]

/-- What UPDATE still has to place after the copy-in, where the buffer fills. -/
theorem remaining_of_fills (hb : bl < blockSize e) (hf : blockSize e ≤ bl + n) :
    remaining e bl n = bl + n - blockSize e := by
  unfold remaining copyIn room
  omega

theorem copyIn_of_fills (hf : blockSize e ≤ bl + n) : copyIn e bl n = blockSize e - bl := by
  unfold copyIn room
  omega

/-- The block in BUF and the direct blocks are the whole blocks of the pending bytes and the payload (R192 (f)). -/
theorem directBlocks_add_one (hb : bl < blockSize e) (hf : blockSize e ≤ bl + n) :
    directBlocks e bl n + 1 = (bl + n) / blockSize e := by
  have hdiv := Nat.sub_mul_div (bl + n) (blockSize e) 1
  have hone : 1 ≤ (bl + n) / blockSize e := (Nat.one_le_div_iff (blockSize_pos e)).2 hf
  rw [Nat.mul_one] at hdiv
  rw [directBlocks, remaining_of_fills hb hf, hdiv]
  omega

theorem leftOver_of_fills (hb : bl < blockSize e) (hf : blockSize e ≤ bl + n) :
    leftOver e bl n = (bl + n) % blockSize e := by
  rw [leftOver, remaining_of_fills hb hf, ← Nat.mod_eq_sub_mod hf]

end UpdateArithmetic

section Update
variable {e : Eng} (data : List Byte) {c : Context e}

/-- UPDATE's early return, where the buffer does not fill. -/
theorem updateContext_of_short (hs : c.bufLen.toNat + data.length < blockSize e) :
    updateContext data c = bufferData data c :=
  if_neg fun h => by have := fillsBlock_eq_true.1 h; omega

theorem updateContext_of_fills (hf : blockSize e ≤ c.bufLen.toNat + data.length) :
    updateContext data c = releaseDatapath (absorbData data c) := if_pos (fillsBlock_eq_true.2 hf)

/-- The pending bytes with the payload behind them: what stands in BUF after the copy-in of a whole payload. -/
theorem readBytes_copyInBuf_of_short (hm : c.buf.wf) (hs : c.bufLen.toNat + data.length < blockSize e) :
    (copyInBuf data c).readBytes 0 (c.bufLen.toNat + data.length) = pendingBytes c ++ data := by
  have hcopy : copyIn e c.bufLen.toNat data.length = data.length := by unfold copyIn room; omega
  rw [copyInBuf, hcopy, List.take_length, Memory.readBytes_writeBytes hm]
  rfl

/-- The first block that UPDATE transforms: the pending bytes and the payload's first `B - BUFLEN`. -/
theorem readBytes_copyInBuf_of_fills (hm : c.buf.wf) (hb : c.bufLen.toNat < blockSize e)
    (hf : blockSize e ≤ c.bufLen.toNat + data.length) :
    (copyInBuf data c).readBytes 0 (blockSize e)
      = pendingBytes c ++ data.take (copyIn e c.bufLen.toNat data.length) := by
  have hcopy := copyIn_of_fills hf
  have hlen : c.bufLen.toNat + (data.take (copyIn e c.bufLen.toNat data.length)).length = blockSize e := by
    rw [List.length_take]; omega
  have := Memory.readBytes_writeBytes hm c.bufLen.toNat (data.take (copyIn e c.bufLen.toNat data.length))
  rwa [hlen] at this

/-- UPDATE on a buffer that fills absorbs the block in BUF and the direct blocks, in the message's order. -/
theorem h_absorbData (hm : c.buf.wf) (hb : c.bufLen.toNat < blockSize e)
    (hf : blockSize e ≤ c.bufLen.toNat + data.length) :
    (absorbData data c).h = absorbBlocks e ((c.bufLen.toNat + data.length) / blockSize e) c.h
      (pendingBytes c ++ data) := by
  have hblock := readBytes_copyInBuf_of_fills data hm hb hf
  have hblen : ((copyInBuf data c).readBytes 0 (blockSize e)).length = blockSize e := Memory.length_readBytes ..
  have hsplit : pendingBytes c ++ data = (copyInBuf data c).readBytes 0 (blockSize e)
      ++ data.drop (copyIn e c.bufLen.toNat data.length) := by
    rw [hblock, List.append_assoc, List.take_append_drop]
  have h : (absorbData data c).h = absorbBlocks e (directBlocks e c.bufLen.toNat data.length)
      (absorbBlocks e 1 c.h ((copyInBuf data c).readBytes 0 (blockSize e)))
      (data.drop (copyIn e c.bufLen.toNat data.length)) := by
    simp only [absorbData, h_transform, List.drop_zero]
  rw [h, ← directBlocks_add_one hb hf, Nat.add_comm, absorbBlocks_add, hsplit, absorbBlocks_append _ _ (by omega),
    Nat.one_mul, List.drop_left' hblen]

/-- H after UPDATE: the whole blocks of the pending bytes and the payload are absorbed (R186, R192). -/
theorem h_updateContext (hm : c.buf.wf) (hb : c.bufLen.toNat < blockSize e) :
    (updateContext data c).h = absorbBlocks e ((c.bufLen.toNat + data.length) / blockSize e) c.h
      (pendingBytes c ++ data) := by
  rcases Nat.lt_or_ge (c.bufLen.toNat + data.length) (blockSize e) with hs | hf
  · rw [updateContext_of_short data hs, h_bufferData, Nat.div_eq_of_lt hs]; rfl
  · rw [updateContext_of_fills data hf, h_releaseDatapath, h_absorbData data hm hb hf]

/-- BUFLEN after UPDATE (R188, R192). -/
theorem bufLen_updateContext (hb : c.bufLen.toNat < blockSize e) :
    (updateContext data c).bufLen.toNat = (c.bufLen.toNat + data.length) % blockSize e := by
  rcases Nat.lt_or_ge (c.bufLen.toNat + data.length) (blockSize e) with hs | hf
  · rw [updateContext_of_short data hs, bufLen_bufferData, Nat.mod_eq_of_lt hs, toNat_ofNat_of_lt_blockSize hs]
  · rw [updateContext_of_fills data hf, bufLen_releaseDatapath, bufLen_absorbData,
      toNat_ofNat_of_lt_blockSize (leftOver_lt ..), leftOver_of_fills hb hf]

/-- TOTLEN after UPDATE counts the blocks absorbed, modulo 2^64 (R28, R186). -/
theorem totLen_updateContext (hb : c.bufLen.toNat < blockSize e) :
    (updateContext data c).totLen = BitVec.ofNat 64 (c.totLen.toNat
      + (c.bufLen.toNat + data.length) / blockSize e * blockSize e) := by
  rcases Nat.lt_or_ge (c.bufLen.toNat + data.length) (blockSize e) with hs | hf
  · rw [updateContext_of_short data hs, totLen_bufferData, Nat.div_eq_of_lt hs]; simp
  · rw [updateContext_of_fills data hf, totLen_releaseDatapath, totLen_absorbData, directBlocks_add_one hb hf]

/-- PHASE after UPDATE: an empty payload leaves it (R192 (a)). -/
theorem phase_updateContext (hb : c.bufLen.toNat < blockSize e) :
    (updateContext data c).phase = if data = [] then c.phase else .accumulating := by
  rcases Nat.lt_or_ge (c.bufLen.toNat + data.length) (blockSize e) with hs | hf
  · rw [updateContext_of_short data hs, phase_bufferData]
    cases data <;> simp [phaseAfterUpdate]
  · have hne : data ≠ [] := by rintro rfl; exact absurd hf (Nat.not_le.2 hb)
    rw [updateContext_of_fills data hf, phase_releaseDatapath, phase_absorbData, if_neg hne]

@[simp] theorem variant_updateContext : (updateContext data c).variant = c.variant := by
  unfold updateContext
  split <;> simp

theorem wf_copyInBuf (hm : c.buf.wf) : (copyInBuf data c).wf := Memory.wf_writeBytes hm _ _

/-- The pending bytes after UPDATE are what the whole blocks leave of the pending bytes and the payload (R26, R186). -/
theorem pendingBytes_updateContext (hm : c.buf.wf) (hb : c.bufLen.toNat < blockSize e) :
    pendingBytes (updateContext data c) = (pendingBytes c ++ data).drop
      ((c.bufLen.toNat + data.length) / blockSize e * blockSize e) := by
  have hlen := bufLen_updateContext data hb
  rcases Nat.lt_or_ge (c.bufLen.toNat + data.length) (blockSize e) with hs | hf
  · rw [pendingBytes, hlen, Nat.mod_eq_of_lt hs, Nat.div_eq_of_lt hs, updateContext_of_short data hs, buf_bufferData,
      readBytes_copyInBuf_of_short data hm hs, Nat.zero_mul, List.drop_zero]
  · obtain ⟨used, hused⟩ : ∃ used, used = copyIn e c.bufLen.toNat data.length
        + directBlocks e c.bufLen.toNat data.length * blockSize e := ⟨_, rfl⟩
    have hcopy := copyIn_of_fills hf
    have hsum := copyIn_add e c.bufLen.toNat data.length
    have hrlen : (data.drop used).length = leftOver e c.bufLen.toNat data.length := by
      rw [List.length_drop]; omega
    have hblocks : (c.bufLen.toNat + data.length) / blockSize e * blockSize e = (pendingBytes c).length + used := by
      rw [← directBlocks_add_one hb hf, Nat.succ_mul, length_pendingBytes]; omega
    rw [pendingBytes, hlen, updateContext_of_fills data hf, buf_releaseDatapath, buf_absorbData, ← hused,
      ← leftOver_of_fills hb hf, ← hrlen, List.take_length, Memory.readBytes_writeBytes_self (wf_copyInBuf data hm),
      hblocks, List.drop_length_add_append]

/-- UPDATE keeps BUF in canonical form and inside its 2B bytes (R60). -/
theorem buf_updateContext_wf (hm : c.buf.wf) : (updateContext data c).buf.wf := by
  unfold updateContext
  split
  · rw [buf_releaseDatapath, buf_absorbData]
    exact Memory.wf_writeBytes (wf_copyInBuf data hm) _ _
  · exact wf_copyInBuf data hm

theorem buf_updateContext_within (hw : c.buf.within (bufSize e)) (hb : c.bufLen.toNat < blockSize e) :
    (updateContext data c).buf.within (bufSize e) := by
  have hcopy : (copyInBuf data c).within (bufSize e) := by
    refine Memory.within_writeBytes hw _ ?_
    rw [List.length_take, copyIn, room, bufSize]
    omega
  unfold updateContext
  split
  · rw [buf_releaseDatapath, buf_absorbData]
    refine Memory.within_writeBytes hcopy _ ?_
    have := leftOver_lt e c.bufLen.toNat data.length
    rw [List.length_take, bufSize]
    omega
  · exact hcopy

/-- A sum of multiples of B, taken modulo 2^64, is a multiple of B (R28). -/
theorem blockSize_dvd_totLen_add (hd : blockSize e ∣ c.totLen.toNat) (q : Nat) :
    blockSize e ∣ (BitVec.ofNat 64 (c.totLen.toNat + q * blockSize e)).toNat := by
  rw [BitVec.toNat_ofNat]
  exact (Nat.dvd_mod_iff (blockSize_dvd e)).2 (Nat.dvd_add hd (Nat.dvd_mul_left _ _))

/-- UPDATE keeps the invariant of its engine. -/
theorem inv_updateContext (hc : c.Inv) : (updateContext data c).Inv := by
  obtain ⟨hm, hw, hb, hd, hv⟩ := hc
  refine ⟨buf_updateContext_wf data hm, buf_updateContext_within data hw hb, ?_, ?_, by simpa using hv⟩
  · rw [bufLen_updateContext data hb]
    exact Nat.mod_lt _ (blockSize_pos e)
  · rw [totLen_updateContext data hb]
    exact blockSize_dvd_totLen_add hd _

end Update

/-! ### The context after COMPLETE (R194) -/

/-- The context that a COMPLETE which executes leaves on its engine. -/
def completeContext {e : Eng} (c : Context e) : Context e :=
  releaseDatapath { finalTransform c with phase := .finalized }

/-- COMPLETE writes `completeContext` to its engine and appends the digest (R37, R194). -/
theorem completeRun_eq_emit (e : Eng) (s : State) :
    completeRun e s = (s.setCtx e (completeContext (s.ctx e))).emit (digestOf (completeContext (s.ctx e))) := rfl

/-- The padded message in BUF: the pending bytes, the marker, zeros, and L as 8 bytes (R198, R208). -/
def paddedPending {e : Eng} (c : Context e) : List Byte :=
  pendingBytes c ++ [0x80#8] ++ List.replicate (padEnd c - c.bufLen.toNat - 9) 0x00#8
    ++ beBytes 8 (bitLength c.totLen c.bufLen)

section Complete
variable {e : Eng} {c : Context e}

@[simp] theorem bufLen_completeContext : (completeContext c).bufLen = c.bufLen := by simp [completeContext]

@[simp] theorem totLen_completeContext : (completeContext c).totLen = c.totLen := by simp [completeContext]

@[simp] theorem variant_completeContext : (completeContext c).variant = c.variant := by simp [completeContext]

@[simp] theorem phase_completeContext : (completeContext c).phase = .finalized := rfl

@[simp] theorem buf_completeContext : (completeContext c).buf = padBuf c := by simp [completeContext]

theorem wf_padBuf (hm : c.buf.wf) : (padBuf c).wf :=
  Memory.wf_memWrite (Memory.wf_write (Memory.wf_zeroFill hm _ _) _ _) _ _ _

theorem padBuf_within (hw : c.buf.within (bufSize e)) (hb : c.bufLen.toNat < blockSize e) :
    (padBuf c).within (bufSize e) := by
  obtain ⟨hend, hroom⟩ := padEnd_bounds c hb
  refine Memory.within_writeBytes (Memory.within_write (Memory.within_zeroFill hw ?_) ?_ _) _ ?_
  · omega
  · omega
  · rw [length_beBytes, lenBytes]; omega

/-- COMPLETE keeps the invariant of its engine. -/
theorem inv_completeContext (hc : c.Inv) : (completeContext c).Inv := by
  obtain ⟨hm, hw, hb, hd, hv⟩ := hc
  refine ⟨?_, ?_, ?_, ?_, ?_⟩
  · rw [buf_completeContext]; exact wf_padBuf hm
  · rw [buf_completeContext]; exact padBuf_within hw hb
  · rwa [bufLen_completeContext]
  · rwa [totLen_completeContext]
  · rwa [variant_completeContext]

/-- What the padding writes leave at an address outside the length field: the pending bytes, the marker, zeros (R198). -/
theorem read_padBuf_of_lt (hm : c.buf.wf) (hb : c.bufLen.toNat < blockSize e) {a : Nat} (ha : a < padEnd c - 8) :
    (padBuf c).read a =
      if a < c.bufLen.toNat then c.buf.read a else if a = c.bufLen.toNat then 0x80#8 else 0x00#8 := by
  obtain ⟨-, hroom⟩ := padEnd_bounds c hb
  have hz := Memory.wf_zeroFill hm c.bufLen.toNat (padEnd c - c.bufLen.toNat)
  rw [padBuf, Memory.memWrite, Memory.read_writeBytes (Memory.wf_write hz _ _), lenBytes, if_neg (by omega),
    Memory.read_write hz, Memory.read_zeroFill hm]
  by_cases h1 : a < c.bufLen.toNat
  · rw [if_pos h1, if_neg (by omega), if_neg (by omega)]
  · rw [if_neg h1]
    by_cases h2 : a = c.bufLen.toNat
    · rw [if_pos h2, if_pos h2]
    · rw [if_neg h2, if_neg h2, if_pos (by omega)]

/-- COMPLETE leaves the pending bytes in BUF (R203). -/
theorem readBytes_padBuf_pending (hm : c.buf.wf) (hb : c.bufLen.toNat < blockSize e) :
    (padBuf c).readBytes 0 c.bufLen.toNat = pendingBytes c := by
  obtain ⟨-, hroom⟩ := padEnd_bounds c hb
  exact Memory.readBytes_congr fun x _ hx => by rw [read_padBuf_of_lt hm hb (by omega), if_pos (by omega)]

theorem pendingBytes_completeContext (hm : c.buf.wf) (hb : c.bufLen.toNat < blockSize e) :
    pendingBytes (completeContext c) = pendingBytes c := by
  rw [pendingBytes, buf_completeContext, bufLen_completeContext, readBytes_padBuf_pending hm hb]

/-- The padding writes put the padded message into BUF (R198). -/
theorem readBytes_padBuf (hm : c.buf.wf) (hb : c.bufLen.toNat < blockSize e) :
    (padBuf c).readBytes 0 (padEnd c) = paddedPending c := by
  obtain ⟨-, hroom⟩ := padEnd_bounds c hb
  have hmarker : (padBuf c).readBytes c.bufLen.toNat 1 = [0x80#8] := by
    rw [Memory.readBytes, Memory.readBytes, read_padBuf_of_lt hm hb (by omega), if_neg (by omega), if_pos rfl]
  have hzeros : (padBuf c).readBytes (c.bufLen.toNat + 1) (padEnd c - c.bufLen.toNat - 9)
      = List.replicate (padEnd c - c.bufLen.toNat - 9) 0x00#8 :=
    Memory.readBytes_eq_replicate fun x h1 h2 => by
      rw [read_padBuf_of_lt hm hb (by omega), if_neg (by omega), if_neg (by omega)]
  have hlength : (padBuf c).readBytes (padEnd c - 8) 8 = beBytes 8 (bitLength c.totLen c.bufLen) := by
    have := Memory.readBytes_writeBytes_self
      (Memory.wf_write (Memory.wf_zeroFill hm c.bufLen.toNat (padEnd c - c.bufLen.toNat)) c.bufLen.toNat 0x80#8)
      (padEnd c - 8) (beBytes 8 (bitLength c.totLen c.bufLen))
    rwa [length_beBytes] at this
  have hsplit : padEnd c = c.bufLen.toNat + 1 + (padEnd c - c.bufLen.toNat - 9) + 8 := by omega
  have hat : c.bufLen.toNat + 1 + (padEnd c - c.bufLen.toNat - 9) = padEnd c - 8 := by omega
  calc (padBuf c).readBytes 0 (padEnd c)
      = (padBuf c).readBytes 0 (c.bufLen.toNat + 1 + (padEnd c - c.bufLen.toNat - 9) + 8) := by rw [← hsplit]
    _ = paddedPending c := by
        rw [Memory.readBytes_add, Memory.readBytes_add, Memory.readBytes_add, Nat.zero_add, Nat.zero_add, Nat.zero_add,
          hmarker, hzeros, hat, hlength, readBytes_padBuf_pending hm hb, paddedPending]

/-- H after COMPLETE: the one or two blocks of the padded message in BUF are absorbed (R199). -/
theorem h_completeContext (hm : c.buf.wf) (hb : c.bufLen.toNat < blockSize e) :
    (completeContext c).h = absorbBlocks e (finalBlocks e c.bufLen.toNat) c.h (paddedPending c) := by
  simp only [completeContext, h_releaseDatapath, finalTransform, h_transform, List.drop_zero, readBytes_padBuf hm hb]

end Complete

/-! ### The digest (R200, R202) -/

theorem length_serialize {e : Eng} (h : Vector (Word e) 8) : (serialize h).length = stateBytes e := by
  simp [serialize, stateBytes, List.length_flatMap]
  omega

theorem digestSize_le (v : Variant) : digestSize v ≤ stateBytes v.eng := by cases v <;> decide

/-- A digest has the DS bytes of its variant (R202, R220). -/
theorem length_digestOf {e : Eng} {c : Context e} (hv : c.variant.eng = e) :
    (digestOf c).length = digestSize c.variant := by
  have := digestSize_le c.variant
  rw [hv] at this
  rw [digestOf, List.length_take, length_serialize, Nat.min_eq_left this]

/-! ### The context after INIT (R182) -/

/-- INIT makes the invariant of its engine hold. -/
theorem inv_initContext {v : Variant} {c : Context v.eng} (hc : c.Inv) : (initContext v c).Inv := by
  obtain ⟨hm, hw, -⟩ := hc
  refine ⟨Memory.wf_zeroFill hm _ _, Memory.within_zeroFill hw (by simp), blockSize_pos _, Nat.dvd_zero _, rfl⟩

/-- After INIT no byte is pending. -/
@[simp] theorem pendingBytes_initContext (v : Variant) (c : Context v.eng) : pendingBytes (initContext v c) = [] := rfl

end Sys2Proof.Machine

/-! PROOFS. Laws of exec and of the step beside the inversion lemmas: what a refused, a raising and an executing command
answers, and which fields each keeps. -/

namespace Sys2Proof.Machine

/-! ### setCtx, emit -/

theorem ctx_setCtx_of_ne {e e' : Eng} (h : e ≠ e') (s : State) (c : Context e') :
    (s.setCtx e' c).ctx e = s.ctx e := by
  obtain rfl := eq_otherEng_of_ne h
  exact ctx_otherEng_setCtx s e' c

/-- A property of contexts that holds of the written one and of the old ones holds of every context after a write. -/
theorem forall_ctx_setCtx {P : (e : Eng) → Context e → Prop} {s : State} {e' : Eng} {c : Context e'}
    (hc : P e' c) (hs : ∀ e, P e (s.ctx e)) (e : Eng) : P e ((s.setCtx e' c).ctx e) := by
  by_cases he : e = e'
  · subst he; rwa [ctx_setCtx]
  · rw [ctx_setCtx_of_ne he]; exact hs e

@[simp] theorem emit_nil (s : State) : s.emit [] = s := by
  cases s
  simp [State.emit]

@[simp] theorem ctx_afterHeader (s : State) (e : Eng) : s.afterHeader.ctx e = s.ctx e := ctx_withCin ..

/-! ### The engine a command is addressed to -/

@[simp] theorem addressedEngine_initInstr (v : Variant) : addressedEngine (initInstr v) = v.eng := by cases v <;> rfl

@[simp] theorem addressedEngine_updateInstr (e : Eng) (data : List Byte) :
    addressedEngine (updateInstr e data) = e := by cases e <;> rfl

@[simp] theorem addressedEngine_completeInstr (e : Eng) : addressedEngine (completeInstr e) = e := by cases e <;> rfl

/-- The engine whose PHASE a command checks is the engine it is addressed to (R37, R242). -/
theorem addressedEngine_of_lifecycleEngine {i : Instr} {e : Eng} (h : lifecycleEngine i = some e) :
    addressedEngine i = e := by
  rcases instr_kinds i with ⟨v, rfl⟩ | ⟨e', data, rfl⟩ | ⟨e', rfl⟩
  · simp at h
  · simpa using h
  · simpa using h

/-! ### What exec answers -/

/-- While FAULT is 1 every command is refused (R248). -/
theorem exec_faulted {s : State} (h : s.fault = true) (i : Instr) : exec i s = .next s := by
  rcases instr_kinds i with ⟨v, rfl⟩ | ⟨e, data, rfl⟩ | ⟨e, rfl⟩
  · rw [exec_initInstr, initCommand, legality_faulted h]
  · rw [exec_updateInstr, updateCommand, legality_faulted h]
  · rw [exec_completeInstr, completeCommand, legality_faulted h]

/-- A command whose legality check raises a fault has that as its only effect (R246). -/
theorem exec_raise {i : Instr} {s : State} {c : Cause} (h : legality (lifecycleEngine i) s = .raise c) :
    exec i s = .next (s.raiseFault c) := by
  rcases instr_kinds i with ⟨v, rfl⟩ | ⟨e, data, rfl⟩ | ⟨e, rfl⟩
  · obtain ⟨-, e, he, -⟩ := legality_raise h
    simp at he
  · rw [lifecycleEngine_updateInstr] at h
    rw [exec_updateInstr, updateCommand, h]
  · rw [lifecycleEngine_completeInstr] at h
    rw [exec_completeInstr, completeCommand, h]

theorem exec_initInstr_run (v : Variant) {s : State} (hf : s.fault = false) :
    exec (initInstr v) s = .next (s.setCtx v.eng (initContext v (s.ctx v.eng))) := by
  rw [exec_initInstr, initCommand_run v hf]

theorem exec_updateInstr_run {e : Eng} (data : List Byte) {s : State} (hf : s.fault = false)
    (hp : (s.ctx e).phase.active) (hb : (s.ctx e).bufLen.toNat < blockSize e) :
    exec (updateInstr e data) s = .next (s.setCtx e (updateContext data (s.ctx e))) := by
  rw [exec_updateInstr, updateCommand_run data hf hp hb, updateRun_eq_setCtx]

theorem exec_completeInstr_run {e : Eng} {s : State} (hf : s.fault = false)
    (hp : (s.ctx e).phase.active) (hb : (s.ctx e).bufLen.toNat < blockSize e) :
    exec (completeInstr e) s =
      .next ((s.setCtx e (completeContext (s.ctx e))).emit (digestOf (completeContext (s.ctx e)))) := by
  rw [exec_completeInstr, completeCommand_run hf hp hb, completeRun_eq_emit]

/-- Everything exec can answer as a next state, by the check it passed: refused, a raised fault, or one of the three
effects on the context of the engine addressed. -/
theorem exec_next_cases {i : Instr} {s t : State} (h : exec i s = .next t) :
    s.fault = true ∧ t = s
    ∨ (∃ c, legality (lifecycleEngine i) s = .raise c ∧ t = s.raiseFault c)
    ∨ s.fault = false ∧ (∃ v, i = initInstr v ∧ t = s.setCtx v.eng (initContext v (s.ctx v.eng)))
    ∨ s.fault = false ∧ (∃ e data, i = updateInstr e data ∧ (s.ctx e).phase.active
        ∧ (s.ctx e).bufLen.toNat < blockSize e ∧ t = s.setCtx e (updateContext data (s.ctx e)))
    ∨ s.fault = false ∧ (∃ e, i = completeInstr e ∧ (s.ctx e).phase.active
        ∧ (s.ctx e).bufLen.toNat < blockSize e
        ∧ t = (s.setCtx e (completeContext (s.ctx e))).emit (digestOf (completeContext (s.ctx e)))) := by
  rcases exec_next h with h | ⟨hf, e, he, ⟨hp, rfl⟩ | ⟨hp, rfl⟩⟩ | h | ⟨hf, e, data, hi, hp, hb, rfl⟩
    | ⟨hf, e, hi, hp, hb, rfl⟩
  · exact .inl h
  · exact .inr (.inl ⟨_, by rw [he, legality_uninit hf hp], rfl⟩)
  · exact .inr (.inl ⟨_, by rw [he, legality_finalized hf hp], rfl⟩)
  · exact .inr (.inr (.inl h))
  · exact .inr (.inr (.inr (.inl ⟨hf, e, data, hi, hp, hb, updateRun_eq_setCtx e data s⟩)))
  · exact .inr (.inr (.inr (.inr ⟨hf, e, hi, hp, hb, completeRun_eq_emit e s⟩)))

/-- The check raises fault 2 or 3 and never "no fault". -/
theorem legality_raise_ne_none {target : Option Eng} {s : State} {c : Cause} (h : legality target s = .raise c) :
    c ≠ .none := by
  obtain ⟨-, e, -, ⟨-, rfl⟩ | ⟨-, rfl⟩⟩ := legality_raise h <;> decide

/-- No command consumes a byte of CIN: the fetch has done so (R90). -/
theorem cin_exec {i : Instr} {s t : State} (h : exec i s = .next t) : t.cin = s.cin := by
  rcases exec_next_cases h with ⟨-, rfl⟩ | ⟨c, -, rfl⟩ | ⟨-, v, -, rfl⟩ | ⟨-, e, data, -, -, -, rfl⟩
    | ⟨-, e, -, -, -, rfl⟩ <;> simp

/-! ### What a step answers -/

theorem step_faulted {s : State} (hf : s.fault = true) : step s = .next s := by simp [step, fetch, hf]

section
variable {s : State} (hf : s.fault = false) (hu : s.untaken = 0)
include hf hu

/-- With CIN empty a step keeps the state (R272). -/
theorem step_idle (hc : s.cin = []) : step s = .next s := by simp [step, fetch, hf, hu, decode_eq_empty.2 hc]

theorem step_illegal {b : Byte} (hd : decode s.cin = .illegal b) :
    step s = .next (s.afterHeader.raiseFault .illegalCommand) := by simp [step, fetch, hf, hu, hd]

theorem step_fragment_raise {e : Eng} {c : Cause} (hd : decode s.cin = .fragment e)
    (hl : legality (some e) s = .raise c) : step s = .next (s.afterHeader.raiseFault c) := by
  simp [step, fetch, fetchFragment, hf, hu, hd, hl]

theorem step_command {i : Instr} {rest : List Byte} (hd : decode s.cin = .command i rest) :
    step s = exec i (s.consume i rest) := by simp [step, fetch, hf, hu, hd]

end

end Sys2Proof.Machine

/-! PROOFS. The invariant at reset and along every step (10_state R27 to R31, R34, R50, R60), and the state that breaks it
(O15, O16, O17, O19). -/

namespace Sys2Proof.Machine

/-! ### The invariant and the updates of a state -/

/-- The invariant speaks of each engine's context by itself, of FAULT with CAUSE, and of what waits on DOUT. -/
theorem State.inv_iff {s : State} : s.Inv ↔ (∀ e, (s.ctx e).Inv) ∧ (s.fault = false ↔ s.cause = .none)
    ∧ s.untaken ≤ s.dout.length ∧ (s.hostTakes = true → s.untaken = 0) := by
  constructor
  · rintro ⟨h32, h64, h⟩
    exact ⟨fun e => by cases e <;> assumption, h⟩
  · rintro ⟨hctx, h⟩
    exact ⟨hctx .e32, hctx .e64, h⟩

theorem State.Inv.ctx {s : State} (h : s.Inv) (e : Eng) : (s.ctx e).Inv := (State.inv_iff.1 h).1 e

theorem State.Inv.setCtx {s : State} (h : s.Inv) {e : Eng} {c : Context e} (hc : c.Inv) : (s.setCtx e c).Inv := by
  obtain ⟨hctx, hrest⟩ := State.inv_iff.1 h
  refine State.inv_iff.2 ⟨forall_ctx_setCtx (P := fun _ c => c.Inv) hc hctx, ?_⟩
  simpa using hrest

theorem State.Inv.withCin {s : State} (h : s.Inv) (bytes : List Byte) : (s.withCin bytes).Inv := h

theorem State.Inv.raiseFault {s : State} (h : s.Inv) {c : Cause} (hc : c ≠ .none) : (s.raiseFault c).Inv := by
  obtain ⟨h32, h64, -, hwait⟩ := h
  exact ⟨h32, h64, by simp [hc], hwait⟩

/-- Bytes appended to DOUT wait only where the host does not take them as they come (R296). -/
theorem State.Inv.emit {s : State} (h : s.Inv) (bytes : List Byte) : (s.emit bytes).Inv := by
  obtain ⟨h32, h64, hcause, hlen, htakes⟩ := h
  refine ⟨h32, h64, hcause, ?_, fun ht => ?_⟩
  · rw [untaken_emit, dout_emit, List.length_append]
    split <;> omega
  · rw [hostTakes_emit] at ht
    rw [untaken_emit, if_pos ht, htakes ht]

theorem State.Inv.consume {s : State} (h : s.Inv) (i : Instr) (rest : List Byte) : (s.consume i rest).Inv := by
  rcases consume_eq s i rest with hc | hc <;> rw [hc] <;> exact h.withCin _

/-- Every command keeps the invariant. -/
theorem State.Inv.exec {s t : State} (hs : s.Inv) {i : Instr} (h : Machine.exec i s = .next t) : t.Inv := by
  rcases exec_next_cases h with ⟨-, rfl⟩ | ⟨c, hc, rfl⟩ | ⟨-, v, -, rfl⟩ | ⟨-, e, data, -, -, -, rfl⟩
    | ⟨-, e, -, -, -, rfl⟩
  · exact hs
  · exact hs.raiseFault (legality_raise_ne_none hc)
  · exact hs.setCtx (inv_initContext (hs.ctx v.eng))
  · exact hs.setCtx (inv_updateContext data (hs.ctx e))
  · exact (hs.setCtx (inv_completeContext (hs.ctx e))).emit _

/-- Every step keeps the invariant. -/
theorem State.Inv.step {s t : State} (hs : s.Inv) (h : Machine.step s = .next t) : t.Inv := by
  rcases step_next h with ⟨-, rfl⟩ | ⟨-, -, ⟨-, rfl⟩ | ⟨-, rfl⟩ | ⟨e, c, -, hc, rfl⟩ | ⟨i, rest, -, hexec⟩⟩
  · exact hs
  · exact hs
  · exact (hs.withCin _).raiseFault (by decide)
  · exact (hs.withCin _).raiseFault (legality_raise_ne_none hc)
  · exact (hs.consume i rest).exec hexec

/-- Settles O17: each of the five things a step can answer keeps the invariant. -/
theorem stepKeepsInvariant : Obligations.StepKeepsInvariant := fun _ _ hs h => hs.step h

/-! ### Reset -/

/-- The registers of an engine after reset meet the invariant, whatever the counter of free values is. -/
theorem inv_context_reset (e : Eng) (n : Nat) : ({ Context.reset e with freeCount := n } : Context e).Inv :=
  ⟨Memory.wf_nil, fun _ h => (List.not_mem_nil h).elim, blockSize_pos e, Nat.dvd_zero _, by cases e <;> rfl⟩

/-- Settles O15: reset and RST write these registers and nothing depends on the state before. -/
theorem resetLeavesUninit : Obligations.ResetLeavesUninit := by
  refine ⟨fun e => ?_, rfl, rfl, fun s => ⟨phase_assertRst s, fault_assertRst s, cause_assertRst s⟩⟩
  cases e <;> rfl

/-- Settles O16: BUF is empty, both lengths are 0 and VARIANT is one of the engine's own. -/
theorem resetMeetsInvariant : Obligations.ResetMeetsInvariant := by
  refine ⟨⟨inv_context_reset .e32 0, inv_context_reset .e64 0, by decide, by decide, fun _ => rfl⟩, fun s => ?_⟩
  refine ⟨inv_context_reset .e32 _, inv_context_reset .e64 _, by simp, ?_, fun _ => untaken_assertRst s⟩
  rw [untaken_assertRst]
  exact Nat.zero_le _

/-! ### BUFLEN out of range -/

/-- Settles O19: the legality check passes and the test of BUFLEN fails. -/
theorem bufLenOutOfRangeStops : Obligations.BufLenOutOfRangeStops := by
  intro e s hf hp hb
  have hrange : ¬ (s.ctx e).bufLen.toNat < blockSize e := Nat.not_lt.2 hb
  refine ⟨fun data => ?_, ?_⟩
  · rw [exec_updateInstr, updateCommand, legality_active hf hp]
    exact if_neg hrange
  · rw [exec_completeInstr, completeCommand, legality_active hf hp]
    exact if_neg hrange

end Sys2Proof.Machine

/-! PROOFS. VARIANT, STATUS, the consumption of CIN and the separation of the engines (O42, O43, O44, O45). -/

namespace Sys2Proof.Machine

/-! ### VARIANT (R29) -/

/-- Writing a context with the VARIANT that stands there changes no VARIANT. -/
theorem variant_setCtx_of_eq {s : State} {e' : Eng} {c : Context e'} (hc : c.variant = (s.ctx e').variant) (e : Eng) :
    ((s.setCtx e' c).ctx e).variant = (s.ctx e).variant :=
  forall_ctx_setCtx (P := fun e c => c.variant = (s.ctx e).variant) hc (fun _ => rfl) e

/-- A command that changes a VARIANT is the INIT of the variant written. -/
theorem exec_changes_variant {i : Instr} {s t : State} {e : Eng} (h : exec i s = .next t)
    (hne : (t.ctx e).variant ≠ (s.ctx e).variant) :
    ∃ v, i = initInstr v ∧ v.eng = e ∧ (t.ctx e).variant = v := by
  rcases exec_next_cases h with ⟨-, rfl⟩ | ⟨c, -, rfl⟩ | ⟨-, v, rfl, rfl⟩ | ⟨-, e', data, -, -, -, rfl⟩
    | ⟨-, e', -, -, -, rfl⟩
  · exact absurd rfl hne
  · simp at hne
  · by_cases he : e = v.eng
    · subst he
      exact ⟨v, rfl, rfl, by rw [ctx_setCtx]; rfl⟩
    · rw [ctx_setCtx_of_ne he] at hne
      exact absurd rfl hne
  · exact absurd (variant_setCtx_of_eq (variant_updateContext data) e) hne
  · rw [ctx_emit] at hne
    exact absurd (variant_setCtx_of_eq variant_completeContext e) hne

/-- Settles O42: what the fetch answers by itself leaves every context, and of the commands only INIT writes VARIANT. -/
theorem onlyInitWritesVariant : Obligations.OnlyInitWritesVariant := by
  intro s t e h hne
  rcases step_next h with ⟨-, rfl⟩ | ⟨-, -, ⟨-, rfl⟩ | ⟨-, rfl⟩ | ⟨e', c, -, -, rfl⟩ | ⟨i, rest, hd, hexec⟩⟩
  · exact absurd rfl hne
  · exact absurd rfl hne
  · simp at hne
  · simp at hne
  · obtain ⟨v, rfl, hv, ht⟩ := exec_changes_variant hexec (by rwa [ctx_consume])
    exact ⟨v, rest, hd, hv, ht⟩

/-! ### STATUS (R32) -/

/-- The seven fields of a word laid out as STATUS is, read back from their places: a field's place counts the bits of the
fields behind it. -/
theorem statusFields (z : BitVec 2) (c : BitVec 3) (f : Bool) (v64 v32 : BitVec 3) (p64 p32 : BitVec 2) :
    let x := z ++ c ++ BitVec.ofBool f ++ v64 ++ v32 ++ p64 ++ p32
    x.extractLsb' 0 2 = p32 ∧ x.extractLsb' 2 2 = p64 ∧ x.extractLsb' 4 3 = v32 ∧ x.extractLsb' 7 3 = v64
    ∧ x.getLsbD 10 = f ∧ x.extractLsb' 11 3 = c ∧ x.extractLsb' 14 2 = z := by
  refine ⟨?_, ?_, ?_, ?_, ?_, ?_, ?_⟩
  · rw [BitVec.extractLsb'_append_eq_right]
  · rw [BitVec.extractLsb'_append_eq_of_le (by decide), BitVec.extractLsb'_append_eq_right]
  · iterate 2 rw [BitVec.extractLsb'_append_eq_of_le (by decide)]
    rw [BitVec.extractLsb'_append_eq_right]
  · iterate 3 rw [BitVec.extractLsb'_append_eq_of_le (by decide)]
    rw [BitVec.extractLsb'_append_eq_right]
  · iterate 4 rw [BitVec.getLsbD_append, if_neg (by decide)]
    rw [BitVec.getLsbD_append, if_pos (by decide)]
    simp
  · iterate 5 rw [BitVec.extractLsb'_append_eq_of_le (by decide)]
    rw [BitVec.extractLsb'_append_eq_right]
  · iterate 5 rw [BitVec.extractLsb'_append_eq_of_le (by decide)]
    rw [BitVec.extractLsb'_append_eq_left]

theorem statusVariant_of_ne_uninit {s : State} {e : Eng} (h : (s.ctx e).phase ≠ .uninit) (n : Nat) :
    statusVariant s e n = variantCode (s.ctx e).variant := if_neg h

/-- Settles O43: STATUS is the concatenation of its fields. -/
theorem statusWordLayout : Obligations.StatusWordLayout := by
  refine ⟨⟨rfl, rfl, rfl, rfl⟩, fun s n => ?_⟩
  obtain ⟨hp32, hp64, hv32, hv64, hf, hc, hz⟩ := statusFields 0#2 (causeCode s.cause) s.fault (statusVariant s .e64 n)
    (statusVariant s .e32 n) (phaseCode s.e64.phase) (phaseCode s.e32.phase)
  exact ⟨hp32, hp64, fun h => hv32.trans (statusVariant_of_ne_uninit (e := .e32) h n),
    fun h => hv64.trans (statusVariant_of_ne_uninit (e := .e64) h n), hf, hc, hz,
    fun h => readStatus_between h n⟩

/-! ### CIN (R33, R68, R108) -/

/-- The bytes after a decoded command are an end of the bytes decoded (R106). -/
theorem decode_command_suffix {bytes : List Byte} {i : Instr} {rest : List Byte}
    (h : decode bytes = .command i rest) : rest <:+ bytes := by
  cases bytes with
  | nil => cases h
  | cons b bytes =>
    refine List.IsSuffix.trans ?_ (List.suffix_cons b bytes)
    simp only [decode] at h
    split at h
    · cases h
    · cases h; exact List.suffix_rfl
    · simp only [decodeUpdate] at h
      split at h
      · cases h
      · split at h
        · cases h
        · cases h; exact (List.drop_suffix _ _).trans (List.drop_suffix _ _)
    · cases h; exact List.suffix_rfl

/-- What a step leaves on CIN is an end of what was there. -/
theorem cin_step_suffix {s t : State} (h : step s = .next t) : t.cin <:+ s.cin := by
  rcases step_next h with ⟨-, rfl⟩ | ⟨-, -, ⟨-, rfl⟩ | ⟨-, rfl⟩ | ⟨e, c, -, -, rfl⟩ | ⟨i, rest, hd, hexec⟩⟩
  · exact List.suffix_rfl
  · exact List.suffix_rfl
  · exact List.tail_suffix _
  · exact List.tail_suffix _
  · rw [cin_exec hexec]
    rcases consume_eq s i rest with hc | hc
    · rw [hc]; exact List.tail_suffix _
    · rw [hc]; exact decode_command_suffix hd

/-- Settles O44: the header byte, or the command decoded, is taken from the front. -/
theorem cinConsumedFromFront : Obligations.CinConsumedFromFront := by
  intro s t h
  obtain ⟨used, hused⟩ := cin_step_suffix h
  exact ⟨used, hused.symm⟩

/-! ### The engines share nothing (R37) -/

/-- The check reads FAULT and the context of the engine addressed only. -/
theorem legality_congr_ctx {i : Instr} {s s' : State} (hf : s.fault = s'.fault)
    (hctx : s.ctx (addressedEngine i) = s'.ctx (addressedEngine i)) :
    legality (lifecycleEngine i) s = legality (lifecycleEngine i) s' :=
  legality_congr hf fun e he => by
    obtain rfl := addressedEngine_of_lifecycleEngine he
    rw [hctx]

/-- What a command does to the engine addressed, to FAULT and CAUSE and to DOUT is the same in two states, and the other
engine keeps its registers in each. -/
abbrev SameEffect (e : Eng) (s s' t t' : State) (bytes : List Byte) : Prop :=
  t'.ctx e = t.ctx e ∧ t.ctx (otherEng e) = s.ctx (otherEng e) ∧ t'.ctx (otherEng e) = s'.ctx (otherEng e)
    ∧ t'.fault = t.fault ∧ t'.cause = t.cause ∧ t.dout = s.dout ++ bytes ∧ t'.dout = s'.dout ++ bytes

section
variable {s s' : State} (hf : s.fault = s'.fault) (hc : s.cause = s'.cause)
include hf hc

theorem sameEffect_of_write {e : Eng} (c : Context e) (bytes : List Byte) :
    SameEffect e s s' ((s.setCtx e c).emit bytes) ((s'.setCtx e c).emit bytes) bytes := by
  refine ⟨?_, ?_, ?_, ?_, ?_, ?_, ?_⟩ <;> simp [hf, hc]

/-- A command that answers in one state answers in every state with the same addressed engine, FAULT and CAUSE, and has
the same effect there. -/
theorem exec_sameEffect {i : Instr} {t : State} {e : Eng} (he : addressedEngine i = e) (hctx : s.ctx e = s'.ctx e)
    (h : exec i s = .next t) : ∃ t' bytes, exec i s' = .next t' ∧ SameEffect e s s' t t' bytes := by
  rcases exec_next_cases h with ⟨hfault, rfl⟩ | ⟨c, hl, rfl⟩ | ⟨hfault, v, rfl, rfl⟩ | ⟨hfault, e', data, rfl, hp, hb, rfl⟩
    | ⟨hfault, e', rfl, hp, hb, rfl⟩
  · exact ⟨s', [], exec_faulted (hf ▸ hfault) i, hctx.symm, rfl, rfl, hf.symm, hc.symm, by simp, by simp⟩
  · subst he
    rw [legality_congr_ctx hf hctx] at hl
    exact ⟨s'.raiseFault c, [], exec_raise hl, by simp [hctx], by simp, by simp, rfl, rfl, by simp, by simp⟩
  · obtain rfl : v.eng = e := (addressedEngine_initInstr v).symm.trans he
    have := sameEffect_of_write hf hc (initContext v (s.ctx v.eng)) []
    rw [emit_nil, emit_nil] at this
    exact ⟨_, [], by rw [exec_initInstr_run v (hf ▸ hfault), ← hctx], this⟩
  · obtain rfl : e' = e := (addressedEngine_updateInstr e' data).symm.trans he
    have := sameEffect_of_write hf hc (updateContext data (s.ctx e')) []
    rw [emit_nil, emit_nil] at this
    rw [hctx] at hp hb
    exact ⟨_, [], by rw [exec_updateInstr_run data (hf ▸ hfault) hp hb, ← hctx], this⟩
  · obtain rfl : e' = e := (addressedEngine_completeInstr e').symm.trans he
    rw [hctx] at hp hb
    exact ⟨_, _, by rw [exec_completeInstr_run (hf ▸ hfault) hp hb, ← hctx], sameEffect_of_write hf hc _ _⟩

end

/-- Settles O45: every effect is one on the context of the engine addressed, FAULT, CAUSE and DOUT, made of that context. -/
theorem enginesShareNothing : Obligations.EnginesShareNothing := by
  intro i s s' t hctx hf hc h
  obtain ⟨t', bytes, hexec, hown, hother, hother', heffect⟩ := exec_sameEffect hf hc rfl hctx h
  exact ⟨hother, t', bytes, hexec, hown, hother', heffect⟩

end Sys2Proof.Machine

/-! PROOFS. Hidden state is unobservable: each command maps contexts that look alike to contexts that look alike, and the
legality check and the fetch read visible state only (10_state R38, R39; O47). -/

namespace Sys2Proof.Machine

/-! ### The three effects on contexts that look alike -/

section
variable {e : Eng} {c d : Context e}

/-- The padded message is made of visible state. -/
theorem paddedPending_congr (h : SameVisible c d) : paddedPending c = paddedPending d := by
  obtain ⟨-, hlen, htot, -, -, hpend⟩ := h
  rw [paddedPending, paddedPending, padEnd, padEnd, hlen, htot, hpend]

theorem sameVisible_updateContext (data : List Byte) (hc : c.Inv) (hd : d.Inv) (h : SameVisible c d) :
    SameVisible (updateContext data c) (updateContext data d) := by
  obtain ⟨hwf, -, hb, -⟩ := hc
  obtain ⟨hwf', -, hb', -⟩ := hd
  obtain ⟨hh, hlen, htot, hphase, hvar, hpend⟩ := h
  refine ⟨?_, BitVec.eq_of_toNat_eq ?_, ?_, ?_, ?_, ?_⟩
  · rw [h_updateContext data hwf hb, h_updateContext data hwf' hb', hlen, hh, hpend]
  · rw [bufLen_updateContext data hb, bufLen_updateContext data hb', hlen]
  · rw [totLen_updateContext data hb, totLen_updateContext data hb', hlen, htot]
  · rw [phase_updateContext data hb, phase_updateContext data hb', hphase]
  · rw [variant_updateContext, variant_updateContext, hvar]
  · rw [pendingBytes_updateContext data hwf hb, pendingBytes_updateContext data hwf' hb', hlen, hpend]

theorem sameVisible_completeContext (hc : c.Inv) (hd : d.Inv) (h : SameVisible c d) :
    SameVisible (completeContext c) (completeContext d) := by
  have hpad := paddedPending_congr h
  obtain ⟨hwf, -, hb, -⟩ := hc
  obtain ⟨hwf', -, hb', -⟩ := hd
  obtain ⟨hh, hlen, htot, -, hvar, hpend⟩ := h
  refine ⟨?_, ?_, ?_, ?_, ?_, ?_⟩
  · rw [h_completeContext hwf hb, h_completeContext hwf' hb', hlen, hh, hpad]
  · rw [bufLen_completeContext, bufLen_completeContext, hlen]
  · rw [totLen_completeContext, totLen_completeContext, htot]
  · rw [phase_completeContext, phase_completeContext]
  · rw [variant_completeContext, variant_completeContext, hvar]
  · rw [pendingBytes_completeContext hwf hb, pendingBytes_completeContext hwf' hb', hpend]

/-- The digest is made of H and VARIANT. -/
theorem digestOf_congr (h : SameVisible c d) : digestOf c = digestOf d := by
  obtain ⟨hh, -, -, -, hvar, -⟩ := h
  rw [digestOf, digestOf, hh, hvar]

end

/-- INIT leaves nothing visible of what was there (R182). -/
theorem sameVisible_initContext (v : Variant) (c d : Context v.eng) :
    SameVisible (initContext v c) (initContext v d) := ⟨rfl, rfl, rfl, rfl, rfl, rfl⟩

/-! ### States that look alike -/

/-- Two states that differ at most in hidden state. -/
abbrev SameVisibleState (s s' : State) : Prop :=
  (∀ e, SameVisible (s.ctx e) (s'.ctx e)) ∧ s.fault = s'.fault ∧ s.cause = s'.cause ∧ s.cin = s'.cin
    ∧ s.dout = s'.dout ∧ s.untaken = s'.untaken ∧ s.hostTakes = s'.hostTakes

section
variable {s s' : State} (h : SameVisibleState s s')
include h

theorem SameVisibleState.setCtx {e : Eng} {c d : Context e} (hcd : SameVisible c d) :
    SameVisibleState (s.setCtx e c) (s'.setCtx e d) := by
  obtain ⟨hctx, hrest⟩ := h
  refine ⟨fun e' => ?_, by simpa using hrest⟩
  by_cases he : e' = e
  · subst he; rwa [ctx_setCtx, ctx_setCtx]
  · rw [ctx_setCtx_of_ne he, ctx_setCtx_of_ne he]; exact hctx e'

theorem SameVisibleState.emit (bytes : List Byte) : SameVisibleState (s.emit bytes) (s'.emit bytes) := by
  obtain ⟨hctx, hf, hc, hi, ho, hu, ht⟩ := h
  refine ⟨fun e => ?_, hf, hc, hi, ?_, ?_, ht⟩
  · rw [ctx_emit, ctx_emit]; exact hctx e
  · rw [dout_emit, dout_emit, ho]
  · rw [untaken_emit, untaken_emit, ht, hu]

theorem SameVisibleState.raiseFault (c : Cause) : SameVisibleState (s.raiseFault c) (s'.raiseFault c) := by
  obtain ⟨hctx, -, -, hrest⟩ := h
  refine ⟨fun e => ?_, rfl, rfl, hrest⟩
  rw [ctx_raiseFault, ctx_raiseFault]; exact hctx e

theorem SameVisibleState.withCin (bytes : List Byte) : SameVisibleState (s.withCin bytes) (s'.withCin bytes) := by
  obtain ⟨hctx, hf, hc, -, hrest⟩ := h
  refine ⟨fun e => ?_, hf, hc, rfl, hrest⟩
  rw [ctx_withCin, ctx_withCin]; exact hctx e

theorem SameVisibleState.afterHeader : SameVisibleState s.afterHeader s'.afterHeader := by
  obtain ⟨-, -, -, hi, -⟩ := id h
  rw [State.afterHeader, State.afterHeader, hi]
  exact h.withCin _

/-- The legality check reads FAULT and PHASE, which are visible (R242). -/
theorem SameVisibleState.legality (target : Option Eng) : legality target s = Machine.legality target s' := by
  obtain ⟨hctx, hf, -⟩ := h
  refine legality_congr hf fun e _ => ?_
  obtain ⟨-, -, -, hp, -⟩ := hctx e
  exact hp

theorem SameVisibleState.consume (i : Instr) (rest : List Byte) :
    SameVisibleState (s.consume i rest) (s'.consume i rest) := by
  unfold State.consume
  rw [← h.legality]
  split
  · exact h.afterHeader
  · exact h.withCin rest

/-- A command that answers in one of two states that look alike answers in the other, and the answers look alike. -/
theorem SameVisibleState.exec {t : State} {i : Instr} (hs : s.Inv) (hs' : s'.Inv) (hexec : exec i s = .next t) :
    ∃ t', Machine.exec i s' = .next t' ∧ SameVisibleState t t' := by
  obtain ⟨hctx, hf, -⟩ := id h
  have hactive : ∀ e, (s.ctx e).phase.active → (s'.ctx e).phase.active := fun e hp => by
    obtain ⟨-, -, -, hphase, -⟩ := hctx e
    rwa [← hphase]
  have hroom : ∀ e, (s'.ctx e).bufLen.toNat < blockSize e := fun e => by
    obtain ⟨-, -, hb, -⟩ := hs'.ctx e
    exact hb
  rcases exec_next_cases hexec with ⟨hfault, rfl⟩ | ⟨c, hl, rfl⟩ | ⟨hfault, v, rfl, rfl⟩
    | ⟨hfault, e, data, rfl, hp, -, rfl⟩ | ⟨hfault, e, rfl, hp, -, rfl⟩
  · exact ⟨s', exec_faulted (hf ▸ hfault) i, h⟩
  · exact ⟨_, exec_raise (by rw [← h.legality, hl]), h.raiseFault c⟩
  · exact ⟨_, exec_initInstr_run v (hf ▸ hfault), h.setCtx (sameVisible_initContext v _ _)⟩
  · exact ⟨_, exec_updateInstr_run data (hf ▸ hfault) (hactive e hp) (hroom e),
      h.setCtx (sameVisible_updateContext data (hs.ctx e) (hs'.ctx e) (hctx e))⟩
  · have hcd := sameVisible_completeContext (hs.ctx e) (hs'.ctx e) (hctx e)
    refine ⟨_, exec_completeInstr_run (hf ▸ hfault) (hactive e hp) (hroom e), ?_⟩
    rw [← digestOf_congr hcd]
    exact (h.setCtx hcd).emit _

/-- A step that exists in one of two states that look alike exists in the other, and the new states look alike. -/
theorem SameVisibleState.step {t : State} (hs : s.Inv) (hs' : s'.Inv) (hstep : step s = .next t) :
    ∃ t', Machine.step s' = .next t' ∧ SameVisibleState t t' := by
  obtain ⟨-, hf, -, hi, -, hu, -⟩ := id h
  rcases step_next hstep with ⟨hfault, rfl⟩ | ⟨hfault, hnone, hcases⟩
  · exact ⟨s', step_faulted (hf ▸ hfault), h⟩
  · rw [hf] at hfault
    rw [hu] at hnone
    rw [hi] at hcases
    rcases hcases with ⟨hempty, rfl⟩ | ⟨⟨b, hd⟩, rfl⟩ | ⟨e, c, hd, hl, rfl⟩ | ⟨i, rest, hd, hexec⟩
    · exact ⟨s', step_idle hfault hnone hempty, h⟩
    · exact ⟨_, step_illegal hfault hnone hd, h.afterHeader.raiseFault _⟩
    · exact ⟨_, step_fragment_raise hfault hnone hd (by rw [← h.legality, hl]), h.afterHeader.raiseFault _⟩
    · rw [step_command hfault hnone hd]
      exact (h.consume i rest).exec (hs.consume i rest) (hs'.consume i rest) hexec

end

/-- Settles O47: no command and no fetch makes anything visible of the hidden registers. -/
theorem hiddenStateUnobservable : Obligations.HiddenStateUnobservable :=
  fun _ _ _ hs hs' hctx hf hc hi ho hu ht hstep =>
    SameVisibleState.step ⟨hctx, hf, hc, hi, ho, hu, ht⟩ hs hs' hstep

end Sys2Proof.Machine

/-! PROOFS. The message an engine holds, and the digest of a whole run (10_state R34, 42_streaming R208; O37, O39). -/

namespace Sys2Proof.Machine

/-! ### INIT and UPDATE on the message held -/

/-- An engine that holds a message is Empty or Accumulating. -/
theorem HoldsMessage.active {v : Variant} {c : Context v.eng} {msg : List Byte} (h : HoldsMessage v c msg) :
    c.phase.active := by
  obtain ⟨-, -, -, -, -, -, -, hp⟩ := h
  rw [hp]
  split
  · exact .inl rfl
  · exact .inr rfl

/-- The whole blocks of the message are all of it but the pending bytes. -/
theorem HoldsMessage.length_sub {v : Variant} {c : Context v.eng} {msg : List Byte} (h : HoldsMessage v c msg) :
    msg.length - c.bufLen.toNat = msg.length / blockSize v.eng * blockSize v.eng := by
  obtain ⟨-, -, -, -, -, hlen, -⟩ := h
  have := Nat.div_add_mod' msg.length (blockSize v.eng)
  omega

/-- H of an engine that holds a message: its whole blocks are absorbed (R34 (d)). -/
theorem HoldsMessage.h_eq {v : Variant} {c : Context v.eng} {msg : List Byte} (h : HoldsMessage v c msg) :
    c.h = absorbBlocks v.eng (msg.length / blockSize v.eng) (ivRow v) msg := by
  have hsub := h.length_sub
  obtain ⟨-, -, -, -, hh, -⟩ := h
  rw [hh, hsub, Nat.mul_div_cancel _ (blockSize_pos _)]

/-- The pending bytes of an engine that holds a message are what its whole blocks leave (R34 (c)). -/
theorem HoldsMessage.pendingBytes_eq {v : Variant} {c : Context v.eng} {msg : List Byte} (h : HoldsMessage v c msg) :
    pendingBytes c = msg.drop (msg.length / blockSize v.eng * blockSize v.eng) := by
  have hsub := h.length_sub
  obtain ⟨-, -, -, hpend, -⟩ := h
  rw [hpend, hsub]

/-- The message held, followed by more bytes, splits into the whole blocks absorbed and the pending bytes. -/
theorem HoldsMessage.absorb_append {v : Variant} {c : Context v.eng} {msg : List Byte} (h : HoldsMessage v c msg)
    (n : Nat) (tail : List Byte) :
    absorbBlocks v.eng n c.h (pendingBytes c ++ tail)
      = absorbBlocks v.eng (msg.length / blockSize v.eng + n) (ivRow v) (msg ++ tail) := by
  have hle : msg.length / blockSize v.eng * blockSize v.eng ≤ msg.length := Nat.div_mul_le_self ..
  rw [absorbBlocks_add, absorbBlocks_append _ _ hle, List.drop_append_of_le_length hle, ← h.h_eq, ← h.pendingBytes_eq]

/-- After INIT the engine holds the empty message (R182). -/
theorem holdsMessage_initContext (v : Variant) (c : Context v.eng) : HoldsMessage v (initContext v c) [] :=
  ⟨blockSize_pos _, Nat.dvd_zero _, rfl, rfl, by simp [absorbBlocks, initContext], by simp [initContext], rfl, rfl⟩

/-- The whole blocks of a longer message: those of the message, then those of its last bytes with the new ones. -/
theorem add_div_of_mod (m n : Nat) {B : Nat} (hB : 0 < B) : (m + n) / B = m / B + (m % B + n) / B := by
  have hsum : m + n = m % B + n + B * (m / B) := by
    have := Nat.mod_add_div m B
    omega
  rw [hsum, Nat.add_mul_div_left _ _ hB, Nat.add_comm]

/-- UPDATE appends its payload to the message held (R186, R192). -/
theorem HoldsMessage.updateContext {v : Variant} {c : Context v.eng} {msg : List Byte} (h : HoldsMessage v c msg)
    (hm : c.buf.wf) (data : List Byte) : HoldsMessage v (updateContext data c) (msg ++ data) := by
  have habsorb := h.absorb_append ((c.bufLen.toNat + data.length) / blockSize v.eng) data
  have hpending := h.pendingBytes_eq
  have hB := blockSize_pos v.eng
  obtain ⟨hb, hd, htot, -, -, hlen, hv, hp⟩ := h
  have hmod : (msg ++ data).length % blockSize v.eng = (c.bufLen.toNat + data.length) % blockSize v.eng := by
    rw [List.length_append, hlen, Nat.mod_add_mod]
  have hdiv : (msg ++ data).length / blockSize v.eng
      = msg.length / blockSize v.eng + (c.bufLen.toNat + data.length) / blockSize v.eng := by
    rw [List.length_append, hlen, add_div_of_mod _ _ hB]
  have hsum := Nat.div_add_mod' (c.bufLen.toNat + data.length) (blockSize v.eng)
  have hsub : (msg ++ data).length - (c.bufLen.toNat + data.length) % blockSize v.eng
      = (msg ++ data).length / blockSize v.eng * blockSize v.eng := by
    have := Nat.div_add_mod' (msg ++ data).length (blockSize v.eng)
    omega
  refine ⟨?_, ?_, ?_, ?_, ?_, ?_, ?_, ?_⟩
  · rw [bufLen_updateContext data hb]; exact Nat.mod_lt _ hB
  · rw [totLen_updateContext data hb]; exact blockSize_dvd_totLen_add hd _
  · rw [bufLen_updateContext data hb, totLen_updateContext data hb, BitVec.toNat_ofNat, List.length_append]
    omega
  · have hdrop := List.drop_append_of_le_length (l₂ := data) (Nat.div_mul_le_self msg.length (blockSize v.eng))
    rw [pendingBytes_updateContext data hm hb, bufLen_updateContext data hb, hsub, hdiv, hpending, Nat.add_mul,
      ← List.drop_drop, hdrop]
  · rw [h_updateContext data hm hb, bufLen_updateContext data hb, hsub, Nat.mul_div_cancel _ hB, habsorb, hdiv]
  · rw [bufLen_updateContext data hb, hmod]
  · rw [variant_updateContext, hv]
  · rw [phase_updateContext data hb, hp]
    by_cases hdata : data = []
    · rw [if_pos hdata, hdata, List.append_nil]
    · rw [if_neg hdata, if_neg (by simp [hdata])]

/-! ### The step of an engine that holds a message -/

/-- A command leaves the registers of every engine but the one it is addressed to (R37). -/
theorem ctx_exec_of_ne {i : Instr} {s t : State} {e : Eng} (he : addressedEngine i ≠ e) (h : exec i s = .next t) :
    t.ctx e = s.ctx e := by
  obtain ⟨-, -, -, -, hother, -⟩ := exec_sameEffect rfl rfl rfl rfl h
  obtain rfl := eq_otherEng_of_ne he.symm
  exact hother

/-- An UPDATE on an engine that holds a message runs. -/
theorem HoldsMessage.exec_update {v : Variant} {s : State} {msg : List Byte} (h : HoldsMessage v (s.ctx v.eng) msg)
    (hf : s.fault = false) (data : List Byte) :
    exec (updateInstr v.eng data) s
      = .next (s.setCtx v.eng (Machine.updateContext data (s.ctx v.eng))) := by
  have hp := h.active
  obtain ⟨hb, -⟩ := h
  exact exec_updateInstr_run data hf hp hb

/-- Settles O39: INIT, UPDATE and the commands of the other engine, one lemma each. -/
theorem contextHoldsMessage : Obligations.ContextHoldsMessage := by
  refine ⟨fun v s _ hf => ?_, fun v msg data s hs hf h => ?_, fun v msg i s t he hexec h => ?_⟩
  · refine ⟨_, exec_initInstr_run v hf, ?_⟩
    rw [ctx_setCtx]
    exact holdsMessage_initContext v _
  · obtain ⟨hm, -⟩ := hs.ctx v.eng
    refine ⟨_, h.exec_update hf data, ?_⟩
    rw [ctx_setCtx]
    exact h.updateContext hm data
  · rwa [ctx_exec_of_ne he hexec]

/-! ### COMPLETE on the message held -/

/-- The padded message has the whole blocks of the message and the final ones (R197, R210). -/
theorem paddedBlocks_eq (e : Eng) (m : Nat) :
    paddedBlocks e m = m / blockSize e + finalBlocks e (m % blockSize e) := by
  cases e with
  | e32 =>
    change (m + 1 + 8 + 64 - 1) / 64 = m / 64 + if m % 64 ≤ 55 then 1 else 2
    split <;> omega
  | e64 =>
    change (m + 1 + 16 + 128 - 1) / 128 = m / 128 + if m % 128 ≤ 111 then 1 else 2
    split <;> omega

/-- The bit length COMPLETE writes is that of the message, modulo 2^64 (R196). -/
theorem HoldsMessage.bitLength_eq {v : Variant} {c : Context v.eng} {msg : List Byte} (h : HoldsMessage v c msg) :
    bitLength c.totLen c.bufLen = msg.length * 8 % 2 ^ 64 := by
  obtain ⟨-, -, htot, -⟩ := h
  rw [bitLength, Nat.mul_mod, htot, ← Nat.mul_mod]

/-- COMPLETE reaches the H of the padded message (R199, R208). -/
theorem HoldsMessage.h_completeContext {v : Variant} {c : Context v.eng} {msg : List Byte} (h : HoldsMessage v c msg)
    (hm : c.buf.wf) : (completeContext c).h
      = absorbBlocks v.eng (paddedBlocks v.eng msg.length) (ivRow v) (paddedMessage v.eng msg) := by
  have hbits := h.bitLength_eq
  have habsorb := h.absorb_append (finalBlocks v.eng c.bufLen.toNat)
    ([0x80#8] ++ List.replicate (padEnd c - c.bufLen.toNat - 9) 0x00#8 ++ beBytes 8 (bitLength c.totLen c.bufLen))
  obtain ⟨hb, -, -, -, -, hlen, -⟩ := h
  have hblocks : paddedBlocks v.eng msg.length = msg.length / blockSize v.eng + finalBlocks v.eng c.bufLen.toNat := by
    rw [paddedBlocks_eq, hlen]
  have hzeros : padEnd c - c.bufLen.toNat - 9 = paddedBlocks v.eng msg.length * blockSize v.eng - msg.length - 9 := by
    have := Nat.div_add_mod' msg.length (blockSize v.eng)
    rw [hblocks, Nat.add_mul, padEnd]
    omega
  rw [Machine.h_completeContext hm hb, paddedPending, paddedMessage, ← hzeros, ← hbits, hblocks]
  simpa only [List.append_assoc] using habsorb

/-- The digest COMPLETE appends is that of the message held (R202, R208). -/
theorem HoldsMessage.digestOf_eq {v : Variant} {c : Context v.eng} {msg : List Byte} (h : HoldsMessage v c msg)
    (hm : c.buf.wf) : digestOf (completeContext c) = refDigest v msg := by
  have hh := h.h_completeContext hm
  obtain ⟨-, -, -, -, -, -, hv, -⟩ := h
  rw [digestOf, hh, variant_completeContext, hv, refDigest]

theorem length_refDigest (v : Variant) (msg : List Byte) : (refDigest v msg).length = digestSize v := by
  rw [refDigest, List.length_take, length_serialize, Nat.min_eq_left (digestSize_le v)]

/-! ### A run of commands (R208, R230) -/

/-- A command that answers, with no digest byte waiting, is followed by the rest of the list. -/
theorem runCommands_cons {i : Instr} {is : List Instr} {s t : State} (hu : s.untaken = 0) (h : exec i s = .next t) :
    runCommands (i :: is) s = runCommands is t := by
  have hnone : ¬ (s.fault = false ∧ 0 < s.untaken) := fun hw => by omega
  rw [runCommands, if_neg hnone, h]

/-- What a list of UPDATEs keeps: FAULT is 0, no digest byte waits, and the engine of v holds a message. -/
structure Streaming (v : Variant) (s : State) (msg : List Byte) : Prop where
  inv : s.Inv
  fault : s.fault = false
  untaken : s.untaken = 0
  holds : HoldsMessage v (s.ctx v.eng) msg

/-- Only the context of engine e differs. -/
theorem FrameOutside.setCtx {e : Eng} {s t : State} (h : FrameOutside e s t) (c : Context e) :
    FrameOutside e s (t.setCtx e c) := by
  simpa [FrameOutside] using h

theorem FrameOutside.emit {e : Eng} {s t : State} (h : FrameOutside e s t) (bytes : List Byte) :
    FrameOutside e s (t.emit bytes) := by
  simpa [FrameOutside] using h

/-- A list of UPDATEs runs to the commands behind it and appends its payloads to the message held. -/
theorem Streaming.run_updates {v : Variant} (is : List Instr) (chunks : List (List Byte)) {s s0 : State}
    {msg : List Byte} (h : Streaming v s msg) (hframe : FrameOutside v.eng s0 s) (hdout : s.dout = s0.dout) :
    ∃ t, runCommands (chunks.map (updateInstr v.eng) ++ is) s = runCommands is t
      ∧ Streaming v t (msg ++ chunks.flatten) ∧ FrameOutside v.eng s0 t ∧ t.dout = s0.dout := by
  induction chunks generalizing s msg with
  | nil => exact ⟨s, rfl, by simpa using h, hframe, hdout⟩
  | cons data chunks ih =>
    obtain ⟨hs, hf, hu, hmsg⟩ := h
    obtain ⟨hm, -⟩ := hs.ctx v.eng
    have hexec := hmsg.exec_update hf data
    have hnext : Streaming v (s.setCtx v.eng (updateContext data (s.ctx v.eng))) (msg ++ data) :=
      ⟨hs.exec hexec, by simpa using hf, by simpa using hu, by rw [ctx_setCtx]; exact hmsg.updateContext hm data⟩
    obtain ⟨t, hrun, ht⟩ := ih hnext (hframe.setCtx _) (by simpa using hdout)
    refine ⟨t, ?_, by simpa [List.append_assoc] using ht⟩
    rw [List.map_cons, List.cons_append, runCommands_cons hu hexec, hrun]

/-- After INIT and any UPDATEs the engine holds the concatenated payload, and COMPLETE is still to run. -/
theorem runCommands_hashRun (v : Variant) (chunks : List (List Byte)) {s : State} (hs : s.Inv) (hf : s.fault = false)
    (hu : s.untaken = 0) : ∃ t, runCommands (hashRun v chunks) s = runCommands [completeInstr v.eng] t
      ∧ Streaming v t chunks.flatten ∧ FrameOutside v.eng s t ∧ t.dout = s.dout := by
  have hexec := exec_initInstr_run v hf
  have hstart : Streaming v (s.setCtx v.eng (initContext v (s.ctx v.eng))) [] :=
    ⟨hs.exec hexec, by simpa using hf, by simpa using hu, by rw [ctx_setCtx]; exact holdsMessage_initContext v _⟩
  have hframe : FrameOutside v.eng s (s.setCtx v.eng (initContext v (s.ctx v.eng))) :=
    FrameOutside.setCtx ⟨rfl, rfl, rfl, rfl, rfl⟩ _
  obtain ⟨t, hrun, ht⟩ := hstart.run_updates [completeInstr v.eng] chunks hframe (by simp)
  refine ⟨t, ?_, ht⟩
  rw [hashRun, List.cons_append, runCommands_cons hu hexec, hrun]

/-- The COMPLETE of a run appends the digest of the message held and leaves the engine Finalized. -/
theorem Streaming.run_complete {v : Variant} {s : State} {msg : List Byte} (h : Streaming v s msg) :
    runCommands [completeInstr v.eng] s
      = .next ((s.setCtx v.eng (completeContext (s.ctx v.eng))).emit (refDigest v msg)) := by
  obtain ⟨hs, hf, hu, hmsg⟩ := h
  obtain ⟨hm, -, hb, -⟩ := hs.ctx v.eng
  rw [runCommands_cons hu (exec_completeInstr_run hf hmsg.active hb), hmsg.digestOf_eq hm]
  rfl

/-- A host that takes everything that waits, in a run with CIN empty and FAULT 0, has a good run (R298). -/
theorem hostTake_all_good {s : State} (hf : s.fault = false) (hc : s.cin = []) :
    ∃ t, s.hostTake s.untaken = some (s.untakenBytes, t) ∧ t.good := by
  refine ⟨{ s with untaken := s.untaken - s.untaken }, ?_, ⟨⟨.inl hc, Nat.sub_self _⟩, hf⟩, hf⟩
  have hlen : s.untakenBytes.length ≤ s.untaken := by
    rw [State.untakenBytes, List.length_drop]; omega
  rw [State.hostTake, if_pos (Nat.le_refl _), List.take_of_length_le hlen]

/-- Settles O37: the engine holds the concatenated payload when COMPLETE comes, by induction on the list of payloads. -/
theorem hashRunGivesReferenceDigest : Obligations.HashRunGivesReferenceDigest := by
  intro v chunks s hs hf hu
  obtain ⟨t, hrun, hstream, hframe, hdout⟩ := runCommands_hashRun v chunks hs hf hu
  obtain ⟨-, -, -, hcin, htakes⟩ := id hframe
  refine ⟨_, hrun.trans hstream.run_complete, ?_, ?_, (hframe.setCtx _).emit _, ?_, fun hc => ?_⟩
  · rw [dout_emit, dout_setCtx, hdout]
  · rw [ctx_emit, ctx_setCtx, phase_completeContext]
  · rw [untaken_emit, hostTakes_setCtx, untaken_setCtx, hstream.untaken, htakes, length_refDigest, Nat.zero_add]
  · exact hostTake_all_good (by simpa using hstream.fault) (by simpa [hcin] using hc)

end Sys2Proof.Machine

/-! PROOFS. The origin of the ROM contents (10_state R42, R49; O59, O60). -/

namespace Sys2Proof.Machine

/-- A word is what the modulus 2^w leaves of any integer part with the word's bits behind it. -/
theorem ofNat_mul_add_toNat {w : Nat} (n : Nat) (x : BitVec w) : x = BitVec.ofNat w (n * 2 ^ w + x.toNat) :=
  BitVec.eq_of_toNat_eq (by rw [BitVec.toNat_ofNat, Nat.mul_add_mod', Nat.mod_eq_of_lt x.isLt])

/-- Settles O59: the root is the cube root's integer part with the 64 bits of the ROM word behind it. -/
theorem roundConstantsAreCubeRoots : Obligations.RoundConstantsAreCubeRoots := by
  have hroots : ∀ j, j < 80 → IsRoot 3 (firstPrimes.getD j 0 * 2 ^ 192)
      (Nat.nthRoot 3 (firstPrimes.getD j 0) * 2 ^ 64 + (kWord .e64 j).toNat) := by decide +kernel
  exact ⟨fun j hj => ⟨_, hroots j hj, ofNat_mul_add_toNat _ _⟩, by decide +kernel⟩

/-- UPDATE leaves an engine on which it is legal Empty or Accumulating (R204). -/
theorem active_updateContext {e : Eng} {c : Context e} (data : List Byte) (hp : c.phase.active)
    (hb : c.bufLen.toNat < blockSize e) : (updateContext data c).phase.active := by
  rw [phase_updateContext data hb]
  split
  · exact hp
  · exact .inr rfl

/-- UPDATE and then COMPLETE run on an engine on which they are legal, with no digest byte waiting. -/
theorem runCommands_update_complete {e : Eng} (data : List Byte) {s : State} (hf : s.fault = false)
    (hu : s.untaken = 0) (hp : (s.ctx e).phase.active) (hb : (s.ctx e).bufLen.toNat < blockSize e) :
    runCommands [updateInstr e data, completeInstr e] s = .next (completeRun e (updateRun e data s)) := by
  have hp' := active_updateContext data hp hb
  have hb' : (updateContext data (s.ctx e)).bufLen.toNat < blockSize e := by
    rw [bufLen_updateContext data hb]
    exact Nat.mod_lt _ (blockSize_pos e)
  rw [runCommands_cons hu (exec_updateInstr_run data hf hp hb), updateRun_eq_setCtx, completeRun_eq_emit,
    runCommands_cons (by simpa using hu)
      (exec_completeInstr_run (by simpa using hf) (by rwa [ctx_setCtx]) (by rwa [ctx_setCtx]))]
  rfl

/-- The state of R49 from which E64 makes the SHA-512/t rows: Empty, with the SHA-512 row XOR a5a5a5a5a5a5a5a5 in H. -/
def nameRunStart : State :=
  { State.reset with
    e64 := { Context.reset .e64 with h := ivSha512.map (· ^^^ 0xa5a5a5a5a5a5a5a5#64), phase := .empty } }

/-- UPDATE of a name and COMPLETE run from that state. -/
theorem runCommands_nameRunStart (name : List Byte) :
    runCommands [.updateE64 name, .completeE64] nameRunStart =
      .next (completeRun .e64 (updateRun .e64 name nameRunStart)) :=
  runCommands_update_complete (e := .e64) (s := nameRunStart) name rfl rfl (.inl rfl) (by decide)

/-- Settles O60: the roots as in O59, with the two runs evaluated. -/
theorem initialValuesAreSquareRoots : Obligations.InitialValuesAreSquareRoots := by
  have h512 : ∀ i : Fin 8, IsRoot 2 (firstPrimes.getD i.val 0 * 2 ^ 128)
      (Nat.sqrt (firstPrimes.getD i.val 0) * 2 ^ 64 + ivSha512[i].toNat) := by decide +kernel
  have h384 : ∀ i : Fin 8, IsRoot 2 (firstPrimes.getD (i.val + 8) 0 * 2 ^ 128)
      (Nat.sqrt (firstPrimes.getD (i.val + 8) 0) * 2 ^ 64 + ivSha384[i].toNat) := by decide +kernel
  refine ⟨fun i => ⟨_, h512 i, ofNat_mul_add_toNat _ _⟩, fun i => ⟨_, h384 i, ofNat_mul_add_toNat _ _⟩,
    by decide +kernel, ⟨_, runCommands_nameRunStart _, ?_⟩, ⟨_, runCommands_nameRunStart _, ?_⟩⟩
  · decide +kernel
  · decide +kernel

end Sys2Proof.Machine

/-! PROOFS. Under the invariant no access falls outside BUF, and the bytes of BUF that an UPDATE stores (20_memory R62,
R67; 42_streaming R186; O18, O28). -/

namespace Sys2Proof.Machine

/-! ### Where exec and the step stop (R62, R107, R296) -/

/-- Under the invariant every command answers: BUFLEN is below B on both engines, the one thing that the commands ask
beside the legality check. -/
theorem State.Inv.exec_total {s : State} (hs : s.Inv) (i : Instr) : ∃ t, Machine.exec i s = .next t := by
  cases hl : Machine.legality (lifecycleEngine i) s with
  | refuse => exact ⟨_, exec_faulted (legality_refuse hl) i⟩
  | raise c => exact ⟨_, exec_raise hl⟩
  | run =>
    obtain ⟨hf, hp⟩ := legality_run hl
    have hb : ∀ e, (s.ctx e).bufLen.toNat < blockSize e := fun e => by
      obtain ⟨-, -, hb, -⟩ := hs.ctx e
      exact hb
    rcases instr_kinds i with ⟨v, rfl⟩ | ⟨e, data, rfl⟩ | ⟨e, rfl⟩
    · exact ⟨_, exec_initInstr_run v hf⟩
    · exact ⟨_, exec_updateInstr_run data hf (hp e (by simp)) (hb e)⟩
    · exact ⟨_, exec_completeInstr_run hf (hp e (by simp)) (hb e)⟩

/-- A fragment of an UPDATE that is legal to execute stops the step (R107, U9). -/
theorem step_fragment_run {s : State} {e : Eng} (hf : s.fault = false) (hu : s.untaken = 0)
    (hd : decode s.cin = .fragment e) (hl : legality (some e) s = .run) : step s = .fault .commandFragment := by
  simp [step, fetch, fetchFragment, hf, hu, hd, hl]

/-- Settles O18: a command that has been fetched runs in a state that meets the invariant too, so it answers; of the
other things that can stand on CIN only a fragment, where its UPDATE is legal, has no next state. -/
theorem noOtherStop : Obligations.NoOtherStop := by
  refine fun s hs => ⟨hs.exec_total, ?_⟩
  cases hf : s.fault with
  | true => exact .inl ⟨_, step_faulted hf⟩
  | false =>
    rcases Nat.eq_zero_or_pos s.untaken with hu | hu
    · cases hd : decode s.cin with
      | empty => exact .inl ⟨_, step_idle hf hu (decode_eq_empty.1 hd)⟩
      | illegal b => exact .inl ⟨_, step_illegal hf hu hd⟩
      | fragment e =>
        cases hl : legality (some e) s with
        | refuse => exact .inl ⟨_, step_faulted (legality_refuse hl)⟩
        | raise c => exact .inl ⟨_, step_fragment_raise hf hu hd hl⟩
        | run => exact .inr (.inr ⟨⟨e, rfl⟩, step_fragment_run hf hu hd hl⟩)
      | command i rest =>
        rw [step_command hf hu hd]
        exact .inl ((hs.consume i rest).exec_total i)
    · exact .inr (.inl ⟨hu, step_untaken hf hu⟩)

/-! ### The bytes of BUF after UPDATE (R67, R186) -/

section StoredBytes
variable {e : Eng} (data : List Byte) {c : Context e}

/-- The copy-in stores the first bytes of the payload from BUFLEN on. -/
theorem read_copyInBuf (hm : c.buf.wf) (a : Nat) :
    (copyInBuf data c).read a =
      if c.bufLen.toNat ≤ a ∧ a < c.bufLen.toNat + copyIn e c.bufLen.toNat data.length
      then data.getD (a - c.bufLen.toNat) 0 else c.buf.read a := by
  have hlen : (data.take (copyIn e c.bufLen.toNat data.length)).length = copyIn e c.bufLen.toNat data.length :=
    List.length_take_of_le (Nat.min_le_left ..)
  rw [copyInBuf, Memory.read_writeBytes hm, hlen]
  refine if_ctx_congr Iff.rfl (fun ha => ?_) fun _ => rfl
  rw [List.getD_eq_getElem?_getD, List.getElem?_take_of_lt (by omega), ← List.getD_eq_getElem?_getD]
  rfl

/-- Where the buffer does not fill, UPDATE stores the whole payload at BUFLEN. -/
theorem read_buf_updateContext_of_short (hm : c.buf.wf) (hs : c.bufLen.toNat + data.length < blockSize e) (a : Nat) :
    (updateContext data c).buf.read a =
      if c.bufLen.toNat ≤ a ∧ a < c.bufLen.toNat + data.length
      then data.getD (a - c.bufLen.toNat) 0 else c.buf.read a := by
  have hcopy : copyIn e c.bufLen.toNat data.length = data.length := by unfold copyIn room; omega
  rw [updateContext_of_short data hs, buf_bufferData, read_copyInBuf data hm, hcopy]

/-- What the copy-in and the direct blocks leave of the payload is its last r bytes (R188). -/
theorem take_leftOver_drop (bl : Nat) :
    (data.drop (copyIn e bl data.length + directBlocks e bl data.length * blockSize e)).take
        (leftOver e bl data.length) = data.drop (data.length - leftOver e bl data.length) := by
  have hsum := copyIn_add e bl data.length
  rw [List.take_of_length_le (by rw [List.length_drop]; omega)]
  congr 1
  omega

/-- Where the buffer fills, UPDATE stores the last bytes of the payload at 0, over what the copy-in stored. -/
theorem read_buf_updateContext_of_fills (hm : c.buf.wf) (hb : c.bufLen.toNat < blockSize e)
    (hf : blockSize e ≤ c.bufLen.toNat + data.length) (a : Nat) :
    (updateContext data c).buf.read a =
      if a < (c.bufLen.toNat + data.length) % blockSize e
      then data.getD (data.length - (c.bufLen.toNat + data.length) % blockSize e + a) 0
      else if c.bufLen.toNat ≤ a ∧ a < blockSize e
      then data.getD (a - c.bufLen.toNat) 0 else c.buf.read a := by
  have hend : c.bufLen.toNat + copyIn e c.bufLen.toNat data.length = blockSize e := by
    rw [copyIn_of_fills hf]; omega
  have hlen : (data.drop (data.length - leftOver e c.bufLen.toNat data.length)).length
      = leftOver e c.bufLen.toNat data.length := by
    have hsum := copyIn_add e c.bufLen.toNat data.length
    rw [List.length_drop]
    omega
  rw [← leftOver_of_fills hb hf, updateContext_of_fills data hf, buf_releaseDatapath, buf_absorbData,
    take_leftOver_drop, Memory.read_writeBytes (wf_copyInBuf data hm), hlen, read_copyInBuf data hm, hend]
  refine if_ctx_congr (by omega) (fun _ => ?_) fun _ => rfl
  rw [List.getD_eq_getElem?_getD, List.getElem?_drop, ← List.getD_eq_getElem?_getD]
  rfl

end StoredBytes

/-- Settles O28: UPDATE answers under the invariant, and its two ways through BUF are the two cases. -/
theorem updateStoresExactly : Obligations.UpdateStoresExactly := by
  intro e data s hs hf hp
  obtain ⟨hm, -, hb, -⟩ := hs.ctx e
  refine ⟨_, exec_updateInstr_run data hf hp hb, ?_⟩
  rw [ctx_setCtx]
  exact ⟨read_buf_updateContext_of_short data hm, read_buf_updateContext_of_fills data hm hb⟩

end Sys2Proof.Machine

/-! PROOFS. The command stream: the byte order, the decoder against the encoder, the step that runs what is decoded, and
where the CORE waits for the host (30_encoding R92, R98, R100, R104, R106, R107, R114; 70_reset R296; O1 to O6, O10). -/

namespace Sys2Proof.Machine

/-! ### Byte order (R15, R64) -/

/-- The last byte is the least significant one. -/
theorem beNat_concat (bytes : List Byte) (b : Byte) : beNat (bytes ++ [b]) = beNat bytes * 256 + b.toNat := by
  simp [beNat]

theorem beBytes_succ (n v : Nat) : beBytes (n + 1) v = beBytes n (v / 256) ++ [BitVec.ofNat 8 v] := by
  have hdiv : ∀ k ∈ List.range n, v / 256 ^ (n + 1 - 1 - k) = v / 256 / 256 ^ (n - 1 - k) := fun k hk => by
    rw [Nat.div_div_eq_div_mul, ← Nat.pow_succ']
    congr 2
    have := List.mem_range.1 hk
    omega
  rw [beBytes, List.range_succ, List.map_append, beBytes, List.map_congr_left fun k hk => congrArg _ (hdiv k hk)]
  simp

/-- Reading the n-byte rendering of a number that fits n bytes gives it back. -/
theorem beNat_beBytes {n v : Nat} (h : v < 256 ^ n) : beNat (beBytes n v) = v := by
  induction n generalizing v with
  | zero => rw [Nat.lt_one_iff.1 h]; rfl
  | succ n ih =>
    rw [beBytes_succ, beNat_concat, ih (by omega), BitVec.toNat_ofNat]
    exact Nat.div_add_mod' v 256

/-- Rendering the number of a byte string in as many bytes gives it back. -/
theorem beBytes_beNat (bytes : List Byte) : beBytes bytes.length (beNat bytes) = bytes := by
  induction bytes using List.reverseRecOn with
  | nil => rfl
  | append_singleton bytes b ih =>
    have hb : b.toNat < 256 := b.isLt
    have hdiv : (beNat bytes * 256 + b.toNat) / 256 = beNat bytes := by omega
    have hlast : BitVec.ofNat 8 (beNat bytes * 256 + b.toNat) = b :=
      BitVec.eq_of_toNat_eq (by rw [BitVec.toNat_ofNat]; omega)
    rw [List.length_append, List.length_singleton, beNat_concat, beBytes_succ, hdiv, hlast, ih]

theorem beNat_lt (bytes : List Byte) : beNat bytes < 256 ^ bytes.length := by
  induction bytes using List.reverseRecOn with
  | nil => decide
  | append_singleton bytes b ih =>
    have hb : b.toNat < 256 := b.isLt
    rw [List.length_append, List.length_singleton, beNat_concat, Nat.pow_succ]
    omega

/-! ### Encoding and well-formedness of the three kinds of command (R92, R98) -/

@[simp] theorem encode_initInstr (v : Variant) : encode (initInstr v) = [headerByte (.init v)] := by cases v <;> rfl

@[simp] theorem encode_updateInstr (e : Eng) (data : List Byte) :
    encode (updateInstr e data) = headerByte (.update e) :: (beBytes 8 data.length ++ data) := by cases e <;> rfl

@[simp] theorem encode_completeInstr (e : Eng) : encode (completeInstr e) = [headerByte (.complete e)] := by
  cases e <;> rfl

@[simp] theorem wellFormed_initInstr (v : Variant) : (initInstr v).wellFormed = true := by cases v <;> rfl

@[simp] theorem wellFormed_updateInstr (e : Eng) (data : List Byte) :
    (updateInstr e data).wellFormed = true ↔ data.length < 2 ^ 64 := by
  cases e <;> exact decide_eq_true_iff

@[simp] theorem wellFormed_completeInstr (e : Eng) : (completeInstr e).wellFormed = true := by cases e <;> rfl

/-! ### The decoder after a legal header (R98, R106, R107) -/

theorem decode_init (v : Variant) (bytes : List Byte) :
    decode (headerByte (.init v) :: bytes) = .command (initInstr v) bytes := by
  rw [decode, decodeHeader_headerByte]

theorem decode_complete (e : Eng) (bytes : List Byte) :
    decode (headerByte (.complete e) :: bytes) = .command (completeInstr e) bytes := by
  rw [decode, decodeHeader_headerByte]

theorem decode_update (e : Eng) (bytes : List Byte) :
    decode (headerByte (.update e) :: bytes) = decodeUpdate e bytes := by
  rw [decode, decodeHeader_headerByte]

/-- Until its 8 LEN bytes have come an UPDATE is a fragment. -/
theorem decodeUpdate_short (e : Eng) {bytes : List Byte} (h : bytes.length < 8) : decodeUpdate e bytes = .fragment e :=
  if_pos h

/-- With its LEN bytes there, an UPDATE is whole when LEN payload bytes are there too. -/
theorem decodeUpdate_append (e : Eng) {lenField : List Byte} (h : lenField.length = 8) (tail : List Byte) :
    decodeUpdate e (lenField ++ tail) =
      if tail.length < beNat lenField then .fragment e
      else .command (updateInstr e (tail.take (beNat lenField))) (tail.drop (beNat lenField)) := by
  have hlong : ¬ (lenField ++ tail).length < 8 := by rw [List.length_append]; omega
  rw [decodeUpdate, if_neg hlong, List.take_left' h, List.drop_left' h]

/-- Settles O5: the header is legal, and the two lemmas above are the two clauses. -/
theorem updateDecodesWhenWhole : Obligations.UpdateDecodesWhenWhole := by
  refine ⟨fun e bytes h => ?_, fun e lenField tail h => ?_⟩
  · rw [decode_update, decodeUpdate_short e h]
  · rw [decode_update, decodeUpdate_append e h]

/-- Settles O1: for an UPDATE, LEN is read back as the payload's length, for a well-formed payload's length fits it. -/
theorem decodeOfEncode : Obligations.DecodeOfEncode := by
  intro i rest hwf
  rcases instr_kinds i with ⟨v, rfl⟩ | ⟨e, data, rfl⟩ | ⟨e, rfl⟩
  · rw [encode_initInstr]
    exact decode_init v rest
  · have hlen : beNat (beBytes 8 data.length) = data.length := beNat_beBytes ((wellFormed_updateInstr e data).1 hwf)
    have hwhole : ¬ (data ++ rest).length < data.length := by rw [List.length_append]; omega
    rw [encode_updateInstr, List.cons_append, List.append_assoc, decode_update,
      decodeUpdate_append e (length_beBytes 8 _), hlen, if_neg hwhole, List.take_left, List.drop_left]
  · rw [encode_completeInstr]
    exact decode_complete e rest

/-- A whole UPDATE is its 8 LEN bytes, LEN payload bytes and what follows them. -/
theorem decodeUpdate_command {e : Eng} {bytes : List Byte} {i : Instr} {rest : List Byte}
    (h : decodeUpdate e bytes = .command i rest) :
    ∃ lenField data, lenField.length = 8 ∧ data.length = beNat lenField ∧ i = updateInstr e data
      ∧ bytes = lenField ++ (data ++ rest) := by
  rcases Nat.lt_or_ge bytes.length 8 with hshort | hlong
  · rw [decodeUpdate_short e hshort] at h
    cases h
  · have hlen : (bytes.take 8).length = 8 := List.length_take_of_le hlong
    rw [← List.take_append_drop 8 bytes, decodeUpdate_append e hlen] at h
    split at h
    · cases h
    · next hwhole =>
      cases h
      exact ⟨_, _, hlen, List.length_take_of_le (Nat.le_of_not_lt hwhole), rfl, by
        rw [List.take_append_drop, List.take_append_drop]⟩

/-- Everything that decodes as a command: a header of format C, or an UPDATE whose operands are all there (R92). -/
theorem decode_command {bytes : List Byte} {i : Instr} {rest : List Byte} (h : decode bytes = .command i rest) :
    (∃ v, i = initInstr v ∧ bytes = headerByte (.init v) :: rest)
    ∨ (∃ e lenField data, lenField.length = 8 ∧ data.length = beNat lenField ∧ i = updateInstr e data
        ∧ bytes = headerByte (.update e) :: (lenField ++ (data ++ rest)))
    ∨ ∃ e, i = completeInstr e ∧ bytes = headerByte (.complete e) :: rest := by
  cases bytes with
  | nil => cases h
  | cons b bytes =>
    cases hd : decodeHeader b with
    | none => rw [decode_of_decodeHeader_none hd] at h; cases h
    | some header =>
      obtain rfl := headerByte_of_decodeHeader b header hd
      cases header with
      | init v => rw [decode_init] at h; cases h; exact .inl ⟨v, rfl, rfl⟩
      | update e =>
        rw [decode_update] at h
        obtain ⟨lenField, data, hlen, hdata, hi, rfl⟩ := decodeUpdate_command h
        exact .inr (.inl ⟨e, lenField, data, hlen, hdata, hi, rfl⟩)
      | complete e => rw [decode_complete] at h; cases h; exact .inr (.inr ⟨e, rfl, rfl⟩)

/-- Settles O2: a header is the byte of what it decodes to, and the 8 LEN bytes are the rendering of LEN. -/
theorem encodeOfDecode : Obligations.EncodeOfDecode := by
  intro bytes i rest h
  rcases decode_command h with ⟨v, rfl, rfl⟩ | ⟨e, lenField, data, hlen, hdata, rfl, rfl⟩ | ⟨e, rfl, rfl⟩
  · exact ⟨wellFormed_initInstr v, by rw [encode_initInstr]; rfl⟩
  · have hfits : beNat lenField < 2 ^ 64 := (beNat_lt lenField).trans_eq (by simp [hlen])
    have hfield : beBytes 8 data.length = lenField := by rw [hdata, ← hlen, beBytes_beNat]
    exact ⟨(wellFormed_updateInstr e data).2 (hdata ▸ hfits), by
      rw [encode_updateInstr, hfield, List.cons_append, List.append_assoc]⟩
  · exact ⟨wellFormed_completeInstr e, by rw [encode_completeInstr]; rfl⟩

/-! ### The opcode map and the worked encodings (R100, R114) -/

/-- Every header has one of the ten bytes of the opcode map. -/
theorem headerByte_mem (h : Header) :
    headerByte h ∈ [0x10#8, 0x11#8, 0x14#8, 0x15#8, 0x16#8, 0x17#8, 0x20#8, 0x24#8, 0x30#8, 0x34#8] := by
  cases h with
  | init v => cases v <;> decide
  | update e => cases e <;> decide
  | complete e => cases e <;> decide

/-- Settles O3: the ten bytes by evaluation; a byte that decoded to a header would be that header's, one of the ten. -/
theorem tenLegalHeaders : Obligations.TenLegalHeaders := by
  refine ⟨by decide, by decide, by decide, by decide, by decide, by decide, by decide, by decide, by decide,
    by decide, fun b hb => ?_⟩
  refine Option.eq_none_iff_forall_ne_some.2 fun h hd => hb ?_
  rw [← headerByte_of_decodeHeader b h hd]
  exact headerByte_mem h

/-- Settles O4: fixed words, encoded and decoded by evaluation. -/
theorem workedEncodings : Obligations.WorkedEncodings := by
  unfold Obligations.WorkedEncodings
  decide

/-! ### The step that runs a decoded command (R90, R102) -/

theorem consume_of_raise {s : State} {i : Instr} {c : Cause} (h : legality (lifecycleEngine i) s = .raise c)
    (rest : List Byte) : s.consume i rest = s.withCin s.cin.tail := by
  rw [State.consume, h]
  rfl

theorem consume_of_not_raise {s : State} {i : Instr} (h : ∀ c, legality (lifecycleEngine i) s ≠ .raise c)
    (rest : List Byte) : s.consume i rest = s.withCin rest := by
  unfold State.consume
  split
  · next c hc => exact absurd hc (h c)
  · rfl

/-- Settles O6: what is consumed depends on whether the legality check raises. -/
theorem stepRunsDecodedCommand : Obligations.StepRunsDecodedCommand := by
  intro s i rest hf hu hd
  refine ⟨fun h => ?_, fun c h => ?_⟩
  · rw [step_command hf hu hd, consume_of_not_raise h]; rfl
  · rw [step_command hf hu hd, consume_of_raise h]; rfl

/-! ### Where the CORE waits for the host (R107, R296) -/

/-- While FAULT is 0 and digest bytes wait to be taken no command of a list begins. -/
theorem runCommands_untaken {s : State} (hf : s.fault = false) (hu : 0 < s.untaken) (i : Instr) (is : List Instr) :
    runCommands (i :: is) s = .fault .digestUntaken := by
  rw [runCommands, if_pos ⟨hf, hu⟩]

theorem length_untakenBytes {s : State} (h : s.untaken ≤ s.dout.length) : s.untakenBytes.length = s.untaken := by
  rw [State.untakenBytes, List.length_drop]
  omega

/-- The bytes that still wait after n have been taken are those behind the first n. -/
theorem untakenBytes_taken {s : State} {n : Nat} (hn : n ≤ s.untaken) (h : s.untaken ≤ s.dout.length) :
    ({ s with untaken := s.untaken - n } : State).untakenBytes = s.untakenBytes.drop n := by
  have hstart : s.dout.length - (s.untaken - n) = s.dout.length - s.untaken + n := by omega
  rw [State.untakenBytes, State.untakenBytes, List.drop_drop, hstart]

/-- With FAULT 0 and no digest byte to be taken, the CORE waits exactly for the rest of an UPDATE that is legal. -/
theorem waiting_iff_fragment {s : State} (hf : s.fault = false) (hu : s.untaken = 0) :
    s.waiting = true ↔ ∃ e, decode s.cin = .fragment e ∧ (s.ctx e).phase.active := by
  cases hd : decode s.cin with
  | empty => simp [State.waiting, fetch, hf, hu, hd]
  | illegal b => simp [State.waiting, fetch, hf, hu, hd]
  | fragment e =>
    have hwait : s.waiting = true ↔ legality (some e) s = .run := by
      cases hl : legality (some e) s <;> simp [State.waiting, fetch, fetchFragment, hf, hu, hd, hl]
    rw [hwait]
    constructor
    · exact fun hl => ⟨e, rfl, (legality_run hl).2 e rfl⟩
    · rintro ⟨e', ⟨⟩, hp⟩
      exact legality_active hf hp
  | command i rest => simp [State.waiting, fetch, hf, hu, hd]

theorem waiting_iff (s : State) :
    s.waiting = true ↔ s.fault = false ∧
      (0 < s.untaken ∨ ∃ e, decode s.cin = .fragment e ∧ (s.ctx e).phase.active) := by
  cases hf : s.fault with
  | true => simp [State.waiting, fetch, hf]
  | false =>
    rcases Nat.eq_zero_or_pos s.untaken with hu | hu
    · simp [waiting_iff_fragment hf hu, hu]
    · simp [State.waiting, fetch, hf, hu]

/-- Settles O10: the two ways of waiting, and what taking bytes leaves waiting. -/
theorem brokenHostDutyStops : Obligations.BrokenHostDutyStops := by
  refine ⟨fun s e hf hu hp hd => step_fragment_run hf hu hd (legality_active hf hp),
    fun s hf hu => ⟨step_untaken hf hu, runCommands_untaken hf hu⟩, fun s n hn hlen => ?_,
    fun s n hn => if_neg (Nat.not_le_of_lt hn), waiting_iff⟩
  have hwait := length_untakenBytes hlen
  refine ⟨s.untakenBytes.take n, _, if_pos hn, List.length_take_of_le (by omega), ?_, hwait, List.drop_suffix _ _,
    rfl⟩
  rw [untakenBytes_taken hn hlen, List.take_append_drop]

end Sys2Proof.Machine

/-! PROOFS. The round primitives bit by bit (40_primitives R122 to R125), and what that says of the sigma functions
(R135): ROTR, SHR and with them F1 to F4 only move bits. -/

namespace Sys2Proof.Machine

/-! ### ROTR (R122) -/

/-- ROTR moves bit `i + n`, counted round the word, to bit `i`: every fact about ROTR below follows from this one. -/
theorem getLsbD_rotr {w i : Nat} (x : BitVec w) (n : Nat) (hi : i < w) :
    (rotr x n).getLsbD i = x.getLsbD ((i + n) % w) := by
  have hr : n % w < w := Nat.mod_lt n (by omega)
  rw [rotr, ← BitVec.rotateRight_def, BitVec.getLsbD_rotateRight, Nat.add_mod_eq_ite, Nat.mod_eq_of_lt hi]
  by_cases hwrap : w ≤ i + n % w
  · have hhigh : ¬ i < w - n % w := by omega
    have hpos : i - (w - n % w) = i + n % w - w := by omega
    simp [hwrap, hhigh, hi, hpos]
  · have hlow : i < w - n % w := by omega
    simp [hwrap, hlow, Nat.add_comm]

theorem rotr_zero (w n : Nat) : rotr (0#w) n = 0#w :=
  BitVec.eq_of_getLsbD_eq fun i hi => by simp [getLsbD_rotr _ n hi]

theorem rotr_allOnes (w n : Nat) : rotr (BitVec.allOnes w) n = BitVec.allOnes w :=
  BitVec.eq_of_getLsbD_eq fun i hi => by simp [getLsbD_rotr _ n hi, hi, Nat.mod_lt (i + n) (Nat.zero_lt_of_lt hi)]

theorem rotr_xor {w : Nat} (x y : BitVec w) (n : Nat) : rotr (x ^^^ y) n = rotr x n ^^^ rotr y n :=
  BitVec.eq_of_getLsbD_eq fun i hi => by simp [getLsbD_rotr _ n hi]

/-- The amount of ROTR counts modulo W (log 11). -/
theorem rotr_mod {w : Nat} (x : BitVec w) (n : Nat) : rotr x (n % w) = rotr x n := by
  rw [rotr, rotr, Nat.mod_mod]

/-- One rotation after another rotates by the sum: the bit passes through `i + n` to `i + n + m`. -/
theorem rotr_rotr {w : Nat} (x : BitVec w) (m n : Nat) : rotr (rotr x m) n = rotr x (m + n) := by
  refine BitVec.eq_of_getLsbD_eq fun i hi => ?_
  have hlt : (i + n) % w < w := Nat.mod_lt _ (Nat.zero_lt_of_lt hi)
  have hindex : ((i + n) % w + m) % w = (i + (m + n)) % w := by
    rw [Nat.mod_add_mod, Nat.add_assoc, Nat.add_comm n m]
  rw [getLsbD_rotr _ n hi, getLsbD_rotr x m hlt, getLsbD_rotr x (m + n) hi, hindex]

/-- Settles O54: the bit law, its two corner cases, and the examples by evaluation. -/
theorem rotrMovesBits : Obligations.RotrMovesBits :=
  ⟨fun _ x n _ _ _ hi => getLsbD_rotr x n hi, fun w n _ _ => ⟨rotr_zero w n, rotr_allOnes w n⟩, by decide⟩

/-! ### SHR (R123) -/

theorem toNat_shr {w : Nat} (x : BitVec w) (n : Nat) : (shr x n).toNat = x.toNat / 2 ^ n := by
  rw [shr, BitVec.toNat_ushiftRight, Nat.shiftRight_eq_div_pow]

theorem shr_eq_zero {w n : Nat} {x : BitVec w} (hx : x.toNat < 2 ^ n) : shr x n = 0#w :=
  BitVec.eq_of_toNat_eq (by simp [toNat_shr, Nat.div_eq_of_lt hx])

theorem shr_xor {w : Nat} (x y : BitVec w) (n : Nat) : shr (x ^^^ y) n = shr x n ^^^ shr y n :=
  BitVec.ushiftRight_xor_distrib x y n

/-- Settles O55: the floor division, its corner case, and the examples by evaluation. -/
theorem shrIsFloorDivision : Obligations.ShrIsFloorDivision :=
  ⟨fun _ x n _ _ => toNat_shr x n, fun _ _ _ _ _ hx => shr_eq_zero hx, by decide⟩

/-! ### CH (R124) -/

/-- CH selects: x says at each bit whether y's or z's is taken. -/
theorem getLsbD_ch {w i : Nat} (x y z : BitVec w) (hi : i < w) :
    (ch x y z).getLsbD i = if x.getLsbD i then y.getLsbD i else z.getLsbD i := by
  rw [ch, BitVec.getLsbD_xor, BitVec.getLsbD_and, BitVec.getLsbD_and, BitVec.getLsbD_not]
  cases x.getLsbD i <;> simp [hi]

theorem ch_allOnes {w : Nat} (y z : BitVec w) : ch (BitVec.allOnes w) y z = y :=
  BitVec.eq_of_getLsbD_eq fun i hi => by rw [getLsbD_ch _ y z hi, BitVec.getLsbD_allOnes]; simp [hi]

theorem ch_zero {w : Nat} (y z : BitVec w) : ch (0#w) y z = z :=
  BitVec.eq_of_getLsbD_eq fun i hi => by simp [getLsbD_ch _ y z hi]

/-- The two terms of CH never both have a 1, for one is masked by x and the other by its complement. -/
theorem chTerms_disjoint {w : Nat} (x y z : BitVec w) : (x &&& y) &&& (~~~x &&& z) = 0#w := by
  refine BitVec.eq_of_getLsbD_eq fun i hi => ?_
  cases hx : x.getLsbD i <;> simp [hx]

theorem ch_eq_or {w : Nat} (x y z : BitVec w) : ch x y z = (x &&& y) ||| (~~~x &&& z) := by
  refine BitVec.eq_of_getLsbD_eq fun i hi => ?_
  rw [getLsbD_ch x y z hi, BitVec.getLsbD_or, BitVec.getLsbD_and, BitVec.getLsbD_and, BitVec.getLsbD_not]
  cases x.getLsbD i <;> simp [hi]

/-- No carry arises between disjoint terms. -/
theorem ch_eq_add {w : Nat} (x y z : BitVec w) : ch x y z = (x &&& y) + (~~~x &&& z) := by
  rw [ch_eq_or, BitVec.add_eq_or_of_and_eq_zero _ _ (chTerms_disjoint x y z)]

/-- Settles O56: the bit law, its corner cases, the three ways to join the disjoint terms, and the examples by
evaluation. -/
theorem chooseSelectsBits : Obligations.ChooseSelectsBits := fun _ x y z =>
  ⟨fun _ hi => getLsbD_ch x y z hi, ch_allOnes y z, ch_zero y z, ch_eq_or x y z, ch_eq_add x y z, by decide⟩

/-! ### MAJ (R125) -/

/-- At least two of three bits are 1 exactly when an odd number of the three pairs is. -/
theorem xor_pairs_eq_or_pairs (a b c : Bool) :
    ((a && b) ^^ (a && c) ^^ (b && c)) = ((a && b) || (a && c) || (b && c)) := by
  cases a <;> cases b <;> simp

theorem getLsbD_maj {w : Nat} (x y z : BitVec w) (i : Nat) : (maj x y z).getLsbD i =
    ((x.getLsbD i && y.getLsbD i) || (x.getLsbD i && z.getLsbD i) || (y.getLsbD i && z.getLsbD i)) := by
  simp only [maj, BitVec.getLsbD_xor, BitVec.getLsbD_and, xor_pairs_eq_or_pairs]

theorem maj_swap_left {w : Nat} (x y z : BitVec w) : maj x y z = maj y x z := by
  rw [maj, maj, BitVec.and_comm x y, BitVec.xor_assoc, BitVec.xor_assoc, BitVec.xor_comm (x &&& z)]

theorem maj_swap_right {w : Nat} (x y z : BitVec w) : maj x y z = maj x z y := by
  rw [maj, maj, BitVec.and_comm y z, BitVec.xor_comm (x &&& y)]

theorem maj_self {w : Nat} (x z : BitVec w) : maj x x z = x := by
  rw [maj, BitVec.and_self, BitVec.xor_assoc, BitVec.xor_self, BitVec.xor_zero]

theorem maj_zero_allOnes {w : Nat} (z : BitVec w) : maj (0#w) (BitVec.allOnes w) z = z := by
  simp [maj]

/-- Settles O57: the bit law, the two exchanges that generate the symmetry, the corner cases, and the examples by
evaluation. -/
theorem majorityOfBits : Obligations.MajorityOfBits := fun _ x y z =>
  ⟨fun i _ => getLsbD_maj x y z i, maj_swap_left x y z, maj_swap_right x y z, maj_self x z, maj_zero_allOnes z,
    by decide⟩

/-! ### The sigma functions (R126 to R135) -/

/-- A map of words that takes XOR to XOR. -/
def XorLinear {w : Nat} (f : BitVec w → BitVec w) : Prop :=
  ∀ x y, f (x ^^^ y) = f x ^^^ f y

theorem XorLinear.map_zero {w : Nat} {f : BitVec w → BitVec w} (hf : XorLinear f) : f 0 = 0 := by
  have h := hf 0 0
  rwa [BitVec.xor_self, BitVec.xor_self] at h

theorem XorLinear.xor {w : Nat} {f g : BitVec w → BitVec w} (hf : XorLinear f) (hg : XorLinear g) :
    XorLinear fun x => f x ^^^ g x := by
  intro x y
  dsimp only
  rw [hf, hg]
  ac_rfl

theorem xorLinear_rotr {w : Nat} (n : Nat) : XorLinear fun x : BitVec w => rotr x n :=
  fun x y => rotr_xor x y n

theorem xorLinear_shr {w : Nat} (n : Nat) : XorLinear fun x : BitVec w => shr x n :=
  fun x y => shr_xor x y n

/-- F1 and F2 are of this form. -/
theorem xorLinear_rotr_rotr_rotr {w : Nat} (a b c : Nat) :
    XorLinear fun x : BitVec w => rotr x a ^^^ rotr x b ^^^ rotr x c :=
  ((xorLinear_rotr a).xor (xorLinear_rotr b)).xor (xorLinear_rotr c)

/-- F3 and F4 are of this form. -/
theorem xorLinear_rotr_rotr_shr {w : Nat} (a b c : Nat) :
    XorLinear fun x : BitVec w => rotr x a ^^^ rotr x b ^^^ shr x c :=
  ((xorLinear_rotr a).xor (xorLinear_rotr b)).xor (xorLinear_shr c)

theorem xorLinear_f1 : ∀ e, XorLinear (f1 e)
  | .e32 => xorLinear_rotr_rotr_rotr 2 13 22
  | .e64 => xorLinear_rotr_rotr_rotr 28 34 39

theorem xorLinear_f2 : ∀ e, XorLinear (f2 e)
  | .e32 => xorLinear_rotr_rotr_rotr 6 11 25
  | .e64 => xorLinear_rotr_rotr_rotr 14 18 41

theorem xorLinear_f3 : ∀ e, XorLinear (f3 e)
  | .e32 => xorLinear_rotr_rotr_shr 7 18 3
  | .e64 => xorLinear_rotr_rotr_shr 1 8 7

theorem xorLinear_f4 : ∀ e, XorLinear (f4 e)
  | .e32 => xorLinear_rotr_rotr_shr 17 19 10
  | .e64 => xorLinear_rotr_rotr_shr 19 61 6

/-- Settles O58: each sigma function is an XOR of rotations and a shift, all linear, and a linear map takes 0 to 0. -/
theorem sigmasAreLinear : Obligations.SigmasAreLinear := by
  refine ⟨fun e x y => ⟨xorLinear_f1 e x y, xorLinear_f2 e x y, xorLinear_f3 e x y, xorLinear_f4 e x y⟩,
    fun e => ⟨(xorLinear_f1 e).map_zero, (xorLinear_f2 e).map_zero, (xorLinear_f3 e).map_zero,
      (xorLinear_f4 e).map_zero⟩, fun w x m n _ _ _ _ _ => ?_⟩
  rw [rotr_rotr, rotr_mod]

end Sys2Proof.Machine

/-! PROOFS. What the steps of TRANSFORM do one by one (41_transform R152 to R164): the recurrence of the message
schedule, the looped and the unrolled rounds, and how TRANSFORM composes. -/

namespace Sys2Proof.Machine

/-! ### TRANSFORM (R162, R164) -/

/-- Settles O48: `h_transform`, by induction over the blocks. -/
theorem transformIsCompress : Obligations.TransformIsCompress := fun _ => h_transform

/-- TRANSFORM of m + n blocks goes on where the first m end. -/
theorem transform_add {e : Eng} (src : List Byte) (base m n : Nat) (c : Context e) :
    transform src base (m + n) c = transform src (base + blockSize e * m) n (transform src base m c) := by
  induction m generalizing base c with
  | zero => simp [transform]
  | succ m ih =>
    have hbase : base + blockSize e + blockSize e * m = base + blockSize e * (m + 1) := by
      rw [Nat.mul_succ]; omega
    rw [Nat.succ_add, transform, ih, transform, hbase]

/-- Settles O49: the composition, and absorbing n blocks reads those blocks and H only. -/
theorem transformComposes : Obligations.TransformComposes := by
  refine fun e src base m n c => ⟨transform_add src base m n c, fun src' base' c' hh hbytes => ?_⟩
  rw [h_transform, h_transform, hh, absorbBlocks_congr _ hbytes]

/-! ### The message schedule (R152, R154) -/

/-- The word that R154 makes of the words 2, 7, 15 and 16 places before index i of a list. -/
def nextScheduleWord (e : Eng) (ws : List (Word e)) (i : Nat) : Word e :=
  f4 e (ws.getD (i - 2) 0) + ws.getD (i - 7) 0 + f3 e (ws.getD (i - 15) 0) + ws.getD (i - 16) 0

theorem extendSchedule_succ (e : Eng) (n : Nat) (ws : List (Word e)) :
    extendSchedule e (n + 1) ws = extendSchedule e n (ws ++ [nextScheduleWord e ws ws.length]) := rfl

theorem prefix_extendSchedule (e : Eng) (n : Nat) (ws : List (Word e)) : ws <+: extendSchedule e n ws := by
  induction n generalizing ws with
  | zero => exact List.prefix_rfl
  | succ n ih => exact (List.prefix_append ws _).trans (ih _)

theorem getD_extendSchedule_of_lt {e : Eng} (n : Nat) (ws : List (Word e)) {i : Nat} (hi : i < ws.length) :
    (extendSchedule e n ws).getD i 0 = ws.getD i 0 := by
  obtain ⟨more, hmore⟩ := prefix_extendSchedule e n ws
  rw [← hmore, List.getD_append _ _ _ _ hi]

/-- Every word that `extendSchedule` appends obeys the recurrence in the finished schedule. -/
theorem getD_extendSchedule_of_le {e : Eng} (n : Nat) (ws : List (Word e)) (h16 : 16 ≤ ws.length) {i : Nat}
    (hlo : ws.length ≤ i) (hhi : i < ws.length + n) :
    (extendSchedule e n ws).getD i 0 = nextScheduleWord e (extendSchedule e n ws) i := by
  induction n generalizing ws with
  | zero => omega
  | succ n ih =>
    have hlen : (ws ++ [nextScheduleWord e ws ws.length]).length = ws.length + 1 := by simp
    rcases hlo.eq_or_lt with rfl | hlt
    · have hnext : nextScheduleWord e (extendSchedule e (n + 1) ws) ws.length = nextScheduleWord e ws ws.length := by
        simp (disch := omega) only [nextScheduleWord, getD_extendSchedule_of_lt]
      rw [hnext, extendSchedule_succ, getD_extendSchedule_of_lt n _ (by omega)]
      simp
    · rw [extendSchedule_succ]
      exact ih _ (by omega) (by omega) (by omega)

/-- The words of the register w obey the recurrence after UNPACK and EXPAND. -/
theorem wRead_expand_unpack_recurrence {e : Eng} (src : List Byte) (o : Nat) (d : Datapath e) {i : Nat}
    (h16 : 16 ≤ i) (hi : i < e.rounds) :
    wRead (expand (unpack src o d)).w i = expandWord (expand (unpack src o d)).w i := by
  simp (disch := omega) only [expandWord, wRead_expand_unpack]
  exact getD_extendSchedule_of_le _ _ (by simp) (by simpa using h16) (by simp; omega)

theorem wRead_expand_unpack_of_lt {e : Eng} (src : List Byte) (o : Nat) (d : Datapath e) {i : Nat} (hi : i < 16) :
    wRead (expand (unpack src o d)).w i
      = BitVec.ofNat e.width (memRead src (o + wordBytes e * i) (wordBytes e)) := by
  rw [wRead_expand_unpack src o d (hi.trans_le (sixteen_le_rounds e)), schedule,
    getD_extendSchedule_of_lt _ _ (by simpa using hi)]
  simp [blockWords, hi, memRead_block]

/-- UNPACK and EXPAND write w and nothing else. -/
theorem expand_unpack_frame {e : Eng} (src : List Byte) (o : Nat) (d : Datapath e) :
    (expand (unpack src o d)).v = d.v ∧ (expand (unpack src o d)).t1 = d.t1
      ∧ (expand (unpack src o d)).t2 = d.t2 ∧ (expand (unpack src o d)).j = d.j := by
  simp only [expand, unpack, and_self]

theorem beNat_replicate_zero (n : Nat) : beNat (List.replicate n 0x00#8) = 0 := by
  induction n with
  | zero => rfl
  | succ n ih => rw [List.replicate_succ', beNat_concat, ih]; rfl

theorem blockWords_replicate_zero (e : Eng) (n : Nat) :
    blockWords e (List.replicate n 0x00#8) = List.replicate 16 0 := by
  simp [blockWords, memRead, beNat_replicate_zero]

theorem getD_replicate_zero {e : Eng} (m k : Nat) : (List.replicate m (0 : Word e)).getD k 0 = 0 := by
  rw [List.getD_eq_getElem?_getD, List.getElem?_replicate]
  split <;> rfl

/-- A schedule of zeros goes on with zeros, since F3 and F4 take 0 to 0. -/
theorem extendSchedule_replicate_zero (e : Eng) (n m : Nat) :
    extendSchedule e n (List.replicate m 0) = List.replicate (m + n) 0 := by
  induction n generalizing m with
  | zero => rfl
  | succ n ih =>
    have hnext : nextScheduleWord e (List.replicate m 0) m = 0 := by
      simp only [nextScheduleWord, getD_replicate_zero, (xorLinear_f3 e).map_zero, (xorLinear_f4 e).map_zero]
      simp
    rw [extendSchedule_succ, List.length_replicate, hnext, ← List.replicate_succ', ih, Nat.succ_add_eq_add_succ]

theorem wRead_expand_unpack_zeroBlock {e : Eng} (d : Datapath e) {i : Nat} (hi : i < e.rounds) :
    wRead (expand (unpack (List.replicate (blockSize e) 0x00#8) 0 d)).w i = 0 := by
  rw [wRead_expand_unpack _ _ _ hi, List.drop_zero, List.take_of_length_le (by simp), schedule,
    blockWords_replicate_zero, extendSchedule_replicate_zero]
  simp

/-- Settles O50: the first words, the recurrence of the later ones, zeros from zeros, and the "abc" blocks by
evaluation. -/
theorem scheduleRecurrence : Obligations.ScheduleRecurrence := by
  refine ⟨fun e src o d => ⟨fun i hi => wRead_expand_unpack_of_lt src o d hi,
    fun i h16 hi => wRead_expand_unpack_recurrence src o d h16 hi, expand_unpack_frame src o d⟩,
    fun e d i hi => wRead_expand_unpack_zeroBlock d hi, ?_, ?_⟩
  · decide +kernel
  · decide +kernel

/-! ### The rounds (R158) -/

/-- Settles O51: the equations are those of `roundAt`; round 0 of the "abc" blocks by evaluation. -/
theorem roundEquations : Obligations.RoundEquations := by
  refine ⟨fun e j d => ⟨rfl, rfl, rfl, rfl, rfl, rfl, rfl, rfl, rfl, rfl, rfl⟩, fun e d => rfl, rfl, rfl,
    ?_, ?_⟩
  · decide +kernel
  · decide +kernel

/-! ### LOADV and ACCUMULATE (R156, R160) -/

theorem getElem_accumulate {e : Eng} (h v : Vector (Word e) 8) : ∀ i : Fin 8, (accumulate h v)[i] = h[i] + v[i]
  | 0 | 1 | 2 | 3 | 4 | 5 | 6 | 7 => rfl

/-- Settles O52: LOADV and ACCUMULATE word by word, and the "abc" block by evaluation. -/
theorem loadAndAccumulate : Obligations.LoadAndAccumulate := by
  refine ⟨fun e h d => rfl, fun e => getElem_accumulate, ?_⟩
  decide +kernel

/-! ### The unrolled rounds (R159) -/

theorem roleIndex_lt (j i : Nat) : roleIndex j i < 8 := Nat.mod_lt _ (by decide)

/-- In each round different roles are played by different registers. -/
theorem roleIndex_inj {j i k : Nat} (hi : i < 8) (hk : k < 8) : roleIndex j i = roleIndex j k ↔ i = k := by
  unfold roleIndex
  omega

theorem roleIndex_add_eight (j i : Nat) : roleIndex (j + 8) i = roleIndex j i := by
  unfold roleIndex
  omega

/-- The register that was `h` is the next round's `a`. -/
theorem roleIndex_succ_zero (j : Nat) : roleIndex (j + 1) 0 = roleIndex j 7 := by
  unfold roleIndex
  omega

/-- Every other role moves to the register that played the role before it. -/
theorem roleIndex_succ_succ (j i : Nat) : roleIndex (j + 1) (i + 1) = roleIndex j i := by
  unfold roleIndex
  omega

theorem getElem_roles {e : Eng} (j : Nat) (r : Vector (Word e) 8) {i : Nat} (hi : i < 8) :
    (roles j r)[i] = r[roleIndex j i]'(roleIndex_lt j i) := by
  simp [roles, roleIndex_lt]

/-- In a round whose number is a multiple of 8 every register plays its own role. -/
theorem roles_of_mod_eight {e : Eng} {j : Nat} (hj : j % 8 = 0) (r : Vector (Word e) 8) : roles j r = r := by
  refine Vector.ext fun i hi => ?_
  have hown : roleIndex j i = i := by
    unfold roleIndex
    omega
  simp [getElem_roles, hown]

/-- A register after an unrolled round, named by its role in that round: only `d` and `h` are written. -/
theorem getElem_unrolledRound {e : Eng} (w : Vector (Word e) e.rounds) (r : Vector (Word e) 8) (j : Nat) {i : Nat}
    (hi : i < 8) :
    (unrolledRound w r j)[roleIndex j i]'(roleIndex_lt j i) =
      if i = 7 then roundT1 (roles j r) (kWord e j) (wRead w j) + roundT2 (roles j r)
      else if i = 3 then (roles j r)[3] + roundT1 (roles j r) (kWord e j) (wRead w j)
      else (roles j r)[i] := by
  simp only [unrolledRound, Vector.getElem_setIfInBounds, roleIndex_inj (show 7 < 8 by decide) hi,
    roleIndex_inj (show 3 < 8 by decide) hi, eq_comm (b := i), getElem_roles j r hi]

/-- Seen by its roles, an unrolled round is the looped round: writing `d` and `h` in place and rotating the roles is the
same as moving all eight values (R159). -/
theorem roles_unrolledRound {e : Eng} (w : Vector (Word e) e.rounds) (r : Vector (Word e) 8) (j : Nat) :
    roles (j + 1) (unrolledRound w r j) =
      rotateV (roles j r) (roundT1 (roles j r) (kWord e j) (wRead w j)) (roundT2 (roles j r)) := by
  refine Vector.ext fun i hi => ?_
  rw [getElem_roles _ _ hi]
  cases i with
  | zero =>
    simp only [roleIndex_succ_zero, getElem_unrolledRound w r j (show 7 < 8 by decide)]
    rfl
  | succ i =>
    simp only [roleIndex_succ_succ, getElem_unrolledRound w r j (show i < 8 by omega)]
    match i, hi with
    | 0, _ | 1, _ | 2, _ | 3, _ | 4, _ | 5, _ | 6, _ => rfl

/-- After n rounds the unrolled registers, seen by their roles, are the looped working variables. -/
theorem roles_unrolledLoop {e : Eng} (d : Datapath e) (n : Nat) :
    roles n ((List.range n).foldl (unrolledRound d.w) d.v)
      = ((List.range n).foldl (fun d j => roundAt j d) d).v
    ∧ ((List.range n).foldl (fun d j => roundAt j d) d).w = d.w := by
  induction n with
  | zero => exact ⟨roles_of_mod_eight rfl d.v, rfl⟩
  | succ n ih =>
    obtain ⟨hv, hw⟩ := ih
    simp only [List.range_succ, List.foldl_append, List.foldl_cons, List.foldl_nil, roles_unrolledRound, hv]
    exact ⟨by rw [← hw]; rfl, hw⟩

theorem rounds_mod_eight (e : Eng) : e.rounds % 8 = 0 := by cases e <;> rfl

/-- Settles O53: the two forms agree by roles after every round, and N rounds bring the roles back. -/
theorem unrolledRoundsEqualLooped : Obligations.UnrolledRoundsEqualLooped := by
  refine ⟨fun e d => ?_, roleIndex_add_eight, rounds_mod_eight⟩
  have hroles := (roles_unrolledLoop d e.rounds).1
  rwa [roles_of_mod_eight (rounds_mod_eight e)] at hroles

end Sys2Proof.Machine

/-! PROOFS. UPDATE and INIT: what an UPDATE absorbs, that UPDATEs concatenate, the UPDATEs that fill no block, and that
INIT forgets (42_streaming R183 to R192, R208; O26, O27, O29, O30, O31, O40). -/

namespace Sys2Proof.Machine

/-! ### UPDATE absorbs the whole blocks (R186, R188, R192) -/

/-- A write to the context of an engine touches nothing outside it (R37). -/
theorem frameOutside_setCtx (e : Eng) (s : State) (c : Context e) : FrameOutside e s (s.setCtx e c) :=
  FrameOutside.setCtx ⟨rfl, rfl, rfl, rfl, rfl⟩ c

/-- Settles O27: UPDATE answers under the invariant, and each register it writes has its lemma, H by induction over the
blocks. -/
theorem updateAbsorbsWholeBlocks : Obligations.UpdateAbsorbsWholeBlocks := by
  intro e data s hs hf hp
  obtain ⟨hm, -, hb, -⟩ := hs.ctx e
  refine ⟨_, exec_updateInstr_run data hf hp hb, ?_⟩
  rw [ctx_setCtx]
  refine ⟨h_updateContext data hm hb, bufLen_updateContext data hb, pendingBytes_updateContext data hm hb, ?_,
    phase_updateContext data hb, variant_updateContext data, frameOutside_setCtx e s _, dout_setCtx .., untaken_setCtx ..⟩
  rw [totLen_updateContext data hb, BitVec.toNat_ofNat]

/-! ### UPDATEs concatenate (R34, R208) -/

/-- Two UPDATEs in a row leave a context that looks as after one UPDATE of the concatenated payload: the second goes on
where the whole blocks of the first end. -/
theorem sameVisible_updateContext_append {e : Eng} {c : Context e} (hc : c.Inv) (d1 d2 : List Byte) :
    SameVisible (updateContext d2 (updateContext d1 c)) (updateContext (d1 ++ d2) c) := by
  obtain ⟨hm1, -, hb1, -⟩ := inv_updateContext d1 hc
  obtain ⟨hm, -, hb, -⟩ := hc
  have hlen1 := bufLen_updateContext d1 hb
  have hpend1 := pendingBytes_updateContext d1 hm hb
  have hsum : c.bufLen.toNat + (d1 ++ d2).length = c.bufLen.toNat + d1.length + d2.length := by
    rw [List.length_append, Nat.add_assoc]
  have hblocks := add_div_of_mod (c.bufLen.toNat + d1.length) d2.length (blockSize_pos e)
  have hwhole : (c.bufLen.toNat + d1.length) / blockSize e * blockSize e ≤ (pendingBytes c ++ d1).length := by
    rw [List.length_append, length_pendingBytes]
    exact Nat.div_mul_le_self ..
  refine ⟨?_, BitVec.eq_of_toNat_eq ?_, BitVec.eq_of_toNat_eq ?_, ?_, ?_, ?_⟩
  · rw [h_updateContext d2 hm1 hb1, h_updateContext d1 hm hb, h_updateContext (d1 ++ d2) hm hb, hlen1, hpend1, hsum,
      hblocks, absorbBlocks_add, ← List.append_assoc, absorbBlocks_append _ _ hwhole,
      List.drop_append_of_le_length hwhole]
  · rw [bufLen_updateContext d2 hb1, hlen1, bufLen_updateContext (d1 ++ d2) hb, hsum, Nat.mod_add_mod]
  · rw [totLen_updateContext d2 hb1, totLen_updateContext d1 hb, totLen_updateContext (d1 ++ d2) hb, hlen1, hsum,
      hblocks, Nat.add_mul, ← Nat.add_assoc]
    simp only [BitVec.toNat_ofNat, Nat.mod_add_mod]
  · rw [phase_updateContext d2 hb1, phase_updateContext d1 hb, phase_updateContext (d1 ++ d2) hb]
    cases d2 <;> simp
  · simp only [variant_updateContext]
  · rw [pendingBytes_updateContext d2 hm1 hb1, hlen1, hpend1, pendingBytes_updateContext (d1 ++ d2) hm hb, hsum, hblocks,
      Nat.add_mul, ← List.drop_drop, ← List.append_assoc, List.drop_append_of_le_length hwhole]

/-- Settles O31: all three UPDATEs write the one context, and the two contexts reached look alike. -/
theorem updatesConcatenate : Obligations.UpdatesConcatenate := by
  intro e d1 d2 s hs hf hp
  obtain ⟨-, -, hb, -⟩ := hs.ctx e
  obtain ⟨-, -, hb1, -⟩ := inv_updateContext d1 (hs.ctx e)
  have hsecond := exec_updateInstr_run (s := s.setCtx e (updateContext d1 (s.ctx e))) d2 (by simpa using hf)
    (by rw [ctx_setCtx]; exact active_updateContext d1 hp hb) (by rwa [ctx_setCtx])
  refine ⟨_, _, _, exec_updateInstr_run d1 hf hp hb, hsecond, exec_updateInstr_run (d1 ++ d2) hf hp hb, ?_⟩
  rw [ctx_setCtx, ctx_setCtx, ctx_setCtx]
  refine ⟨sameVisible_updateContext_append (hs.ctx e) d1 d2, ?_, by simp, by simp⟩
  simp [FrameOutside]

/-! ### UPDATEs that fill no block (R186, R192) -/

theorem phaseAfterUpdate_length (p : Phase) (data : List Byte) :
    phaseAfterUpdate p data.length = if data = [] then p else .accumulating := by
  cases data <;> simp [phaseAfterUpdate]

/-- Settles O29: the early return, of which BUF is left open. -/
theorem shortUpdateRunsNoTransform : Obligations.ShortUpdateRunsNoTransform := by
  intro e data s hf hp hs
  refine ⟨_, exec_updateInstr_run data hf hp (Nat.lt_of_le_of_lt (Nat.le_add_right ..) hs), ?_⟩
  rw [ctx_setCtx, updateContext_of_short data hs, ← phaseAfterUpdate_length]
  rfl

/-- An empty payload leaves every register of the engine (R192 (a)). -/
theorem updateContext_nil {e : Eng} {c : Context e} (hb : c.bufLen.toNat < blockSize e) : updateContext [] c = c := by
  rw [updateContext_of_short [] hb]
  simp [bufferData, copyInBuf, phaseAfterUpdate, Memory.writeBytes]

/-- Settles O30: the context written back is the one that stands there. -/
theorem emptyUpdateChangesNothing : Obligations.EmptyUpdateChangesNothing := by
  intro e s hf hp hb
  rw [exec_updateInstr_run [] hf hp hb, updateContext_nil hb, setCtx_ctx]

/-! ### The number of blocks (R192 (f), R210) -/

/-- Settles O40: the blocks of an UPDATE, and those of the padded message on each engine. -/
theorem transformCounts : Obligations.TransformCounts :=
  ⟨fun _ _ _ => directBlocks_add_one, fun m => (paddedBlocks_eq .e32 m).symm, fun m => (paddedBlocks_eq .e64 m).symm⟩

/-! ### INIT forgets (R182, R183) -/

/-- INIT clears the whole of BUF. -/
theorem buf_initContext {v : Variant} {c : Context v.eng} (hc : c.Inv) : (initContext v c).buf = [] := by
  obtain ⟨hm, hw, -⟩ := hc
  exact Memory.zeroFill_all hm hw

/-- Settles O26: INIT writes constants to every register but the transient ones. -/
theorem initForgetsHistory : Obligations.InitForgetsHistory := by
  intro v s s' hs hs' hf hf'
  refine ⟨_, _, exec_initInstr_run v hf, exec_initInstr_run v hf', ?_⟩
  rw [ctx_setCtx, ctx_setCtx]
  refine ⟨rfl, ?_, rfl, rfl, rfl, rfl⟩
  rw [buf_initContext (hs.ctx _), buf_initContext (hs'.ctx _)]

end Sys2Proof.Machine

/-! PROOFS. COMPLETE, the digest on DOUT, the whole run and the PHASE table (42_streaming R194 to R208; O33 to O36, O38,
O41). -/

namespace Sys2Proof.Machine

/-! ### COMPLETE (R194, R199, R202) -/

/-- A digest as the model's statements write it: the leading DS bytes of the serialised H (R202). -/
theorem digestOf_completeContext {e : Eng} (c : Context e) :
    digestOf (completeContext c) = (serialize (completeContext c).h).take (digestSize c.variant) := by
  rw [digestOf, variant_completeContext]

/-- Settles O33: COMPLETE answers under the invariant, H absorbs the padded blocks in BUF, and the digest of that H is
appended. -/
theorem completeEmitsDigest : Obligations.CompleteEmitsDigest := by
  refine ⟨rfl, rfl, fun e s hs hf hp => ?_⟩
  obtain ⟨hm, -, hb, -, hv⟩ := hs.ctx e
  have hlen : (digestOf (completeContext (s.ctx e))).length = digestSize (s.ctx e).variant := by
    rw [length_digestOf (by rwa [variant_completeContext]), variant_completeContext]
  refine ⟨_, _, exec_completeInstr_run hf hp hb, rfl, ?_⟩
  rw [ctx_emit, ctx_setCtx]
  refine ⟨h_completeContext hm hb, ?_, ?_, bufLen_completeContext, totLen_completeContext, variant_completeContext,
    phase_completeContext, (frameOutside_setCtx e s _).emit _⟩
  · rw [dout_emit, dout_setCtx, digestOf_completeContext]
  · rw [untaken_emit, hostTakes_setCtx, untaken_setCtx, hlen]

/-! ### The padded BUF, byte by byte (R197, R198) -/

/-- A byte of the big-endian rendering (R15). -/
theorem getD_beBytes {n k : Nat} (v : Nat) (d : Byte) (hk : k < n) :
    (beBytes n v).getD k d = BitVec.ofNat 8 (v / 256 ^ (n - 1 - k)) := by
  simp [beBytes, hk]

section
variable {e : Eng} {c : Context e}

theorem padEnd_eq : padEnd c = if c.bufLen.toNat ≤ padMax e then blockSize e else 2 * blockSize e := by
  rw [padEnd, finalBlocks, ite_mul, Nat.one_mul]

/-- The marker and the length region fit behind the pending bytes (R197). -/
theorem bufLen_le_padEnd (hb : c.bufLen.toNat < blockSize e) : c.bufLen.toNat ≤ padEnd c - 1 - lenRegion e := by
  have hlr : lenRegion e < blockSize e := by cases e <;> decide
  rw [padEnd_eq]
  split
  · assumption
  · omega

/-- The bytes of the padded BUF from the length field on: the big-endian bit length, and behind it the old bytes. -/
theorem read_padBuf_of_le (hm : c.buf.wf) (hb : c.bufLen.toNat < blockSize e) {a : Nat} (ha : padEnd c - 8 ≤ a) :
    (padBuf c).read a =
      if a < padEnd c then BitVec.ofNat 8 (bitLength c.totLen c.bufLen / 256 ^ (padEnd c - 1 - a)) else c.buf.read a := by
  obtain ⟨-, hroom⟩ := padEnd_bounds c hb
  have hz := Memory.wf_zeroFill hm c.bufLen.toNat (padEnd c - c.bufLen.toNat)
  rw [padBuf, Memory.memWrite, Memory.read_writeBytes (Memory.wf_write hz _ _), length_beBytes, lenBytes]
  by_cases hin : a < padEnd c
  · rw [if_pos hin, if_pos (by omega), getD_beBytes _ _ (by omega)]
    congr 3
    omega
  · rw [if_neg hin, if_neg (by omega), Memory.read_write hz, if_neg (by omega), Memory.read_zeroFill hm,
      if_neg (by omega)]

end

/-- Settles O34: the bytes below the length field, and those from it on. -/
theorem completePadsBuffer : Obligations.CompletePadsBuffer := by
  intro e s hs hf hp
  obtain ⟨hm, -, hb, -⟩ := hs.ctx e
  obtain ⟨-, hroom⟩ := padEnd_bounds (s.ctx e) hb
  have hregion : 8 ≤ lenRegion e := by cases e <;> decide
  refine ⟨_, padEnd (s.ctx e), exec_completeInstr_run hf hp hb, padEnd_eq, bufLen_le_padEnd hb, ?_, fun a => ?_⟩
  · omega
  · rw [ctx_emit, ctx_setCtx, buf_completeContext]
    rcases Nat.lt_or_ge a (padEnd (s.ctx e) - 8) with ha | ha
    · rw [read_padBuf_of_lt hm hb ha, if_pos ha]
    · have hpending : ¬ a < (s.ctx e).bufLen.toNat := by omega
      have hmarker : a ≠ (s.ctx e).bufLen.toNat := by omega
      rw [read_padBuf_of_le hm hb ha, if_neg hpending, if_neg hmarker, if_neg (Nat.not_lt.2 ha)]
      rfl

/-! ### Serialisation (R200) -/

/-- In a concatenation of pieces of n bytes each, byte `n*i + k` is byte k of piece i. -/
theorem getD_flatMap_of_length {α β : Type} {f : α → List β} {n k : Nat} (hk : k < n) (d : β) {l : List α}
    (hf : ∀ x ∈ l, (f x).length = n) {i : Nat} (hi : i < l.length) :
    (l.flatMap f).getD (n * i + k) d = (f l[i]).getD k d := by
  induction l generalizing i with
  | nil => cases hi
  | cons x l ih =>
    obtain ⟨hx, hl⟩ := List.forall_mem_cons.1 hf
    rw [List.flatMap_cons]
    cases i with
    | zero => rw [Nat.mul_zero, Nat.zero_add, List.getD_append _ _ _ _ (by omega), List.getElem_cons_zero]
    | succ i =>
      rw [Nat.mul_succ, List.getD_append_right _ _ _ _ (by omega), hx, List.getElem_cons_succ,
        ← ih hl (by simpa using hi)]
      congr 1
      omega

/-- A byte of a number by shift and by division. -/
theorem shiftRight_mul_eight (x m : Nat) : x >>> (8 * m) = x / 256 ^ m := by
  rw [Nat.shiftRight_eq_div_pow, Nat.pow_mul]

/-- Settles O35: every piece of the serialised state has WB bytes, and piece i is the rendering of `H[i]`. -/
theorem serializeIsBigEndian : Obligations.SerializeIsBigEndian := by
  refine fun e h => ⟨length_serialize h, fun i k hk => ?_⟩
  have hpiece := getD_flatMap_of_length (f := fun x : Word e => beBytes (wordBytes e) x.toNat) hk 0 (l := h.toList)
    (fun x _ => length_beBytes _ _) (i := i.val) (by simp)
  rw [serialize, hpiece, getD_beBytes _ _ hk, shiftRight_mul_eight]
  refine BitVec.eq_of_toNat_eq ?_
  simp

/-! ### Who appends to DOUT (R33, R202) -/

/-- A command appends nothing to DOUT, or it is a COMPLETE and appends the leading DS bytes of its engine's new H. -/
theorem dout_exec {i : Instr} {s t : State} (h : exec i s = .next t) :
    t.dout = s.dout
    ∨ ∃ e, i = completeInstr e
        ∧ t.dout = s.dout ++ (serialize (t.ctx e).h).take (digestSize (s.ctx e).variant) := by
  rcases exec_next_cases h with ⟨-, rfl⟩ | ⟨c, -, rfl⟩ | ⟨-, v, -, rfl⟩ | ⟨-, e, data, -, -, -, rfl⟩
    | ⟨-, e, rfl, -, -, rfl⟩
  · exact .inl rfl
  · exact .inl rfl
  · exact .inl (dout_setCtx ..)
  · exact .inl (dout_setCtx ..)
  · refine .inr ⟨e, rfl, ?_⟩
    rw [dout_emit, dout_setCtx, digestOf_completeContext, ctx_emit, ctx_setCtx]

/-- The serialised state of a variant's engine has at least the DS bytes of its digest (R202, R220). -/
theorem length_take_serialize {e : Eng} {v : Variant} (hv : v.eng = e) (h : Vector (Word e) 8) :
    ((serialize h).take (digestSize v)).length = digestSize v := by
  subst hv
  rw [List.length_take, length_serialize, Nat.min_eq_left (digestSize_le v)]

/-- Settles O36: of what a step can do only running a command reaches DOUT. -/
theorem onlyCompleteAppends : Obligations.OnlyCompleteAppends := by
  intro s t hs h
  rcases step_next h with ⟨-, rfl⟩ | ⟨-, -, ⟨-, rfl⟩ | ⟨-, rfl⟩ | ⟨e, c, -, -, rfl⟩ | ⟨i, rest, hd, hexec⟩⟩
  · exact .inl rfl
  · exact .inl rfl
  · exact .inl rfl
  · exact .inl rfl
  · rcases dout_exec hexec with hsame | ⟨e, rfl, hdout⟩
    · exact .inl (by rw [hsame, dout_consume])
    · rw [dout_consume, ctx_consume] at hdout
      obtain ⟨-, -, -, -, hv⟩ := hs.ctx e
      exact .inr ⟨e, rest, hd, hdout, by rw [hdout, List.length_append, length_take_serialize hv]⟩

/-! ### A message split into UPDATEs (R208) -/

/-- Settles O38: each of the runs appends the digest of the concatenated payload. -/
theorem streamingEquivalence : Obligations.StreamingEquivalence := by
  intro v chunks s hs hf hu
  obtain ⟨t, hrun, hdout, -⟩ := hashRunGivesReferenceDigest v chunks s hs hf hu
  obtain ⟨t1, hrun1, hdout1, -⟩ := hashRunGivesReferenceDigest v [chunks.flatten] s hs hf hu
  obtain ⟨t0, hrun0, hdout0, -⟩ := hashRunGivesReferenceDigest v [] s hs hf hu
  refine ⟨t, t1, hrun, hrun1, ?_, ?_, hdout, fun hempty => ⟨t0, hrun0, ?_⟩⟩
  · rw [hdout, hdout1, List.flatten_singleton]
  · rw [hdout, List.length_append, length_refDigest]
  · rw [hdout, hdout0, hempty, List.flatten_nil]

/-! ### The PHASE table (R204) -/

section
variable {e : Eng} {s : State}

/-- The fault entries: the command raises what the check says and PHASE stays. -/
theorem exec_raise_phase {i : Instr} {c : Cause} {p : Phase} (hi : lifecycleEngine i = some e)
    (hl : legality (some e) s = .raise c) (hp : (s.ctx e).phase = p) :
    ∃ t, exec i s = .next t ∧ t.fault = true ∧ t.cause = c ∧ (t.ctx e).phase = p :=
  ⟨_, exec_raise (hi ▸ hl), rfl, rfl, by rwa [ctx_raiseFault]⟩

section
variable (hs : s.Inv) (hf : s.fault = false) (hp : (s.ctx e).phase.active)
include hs hf hp

/-- The UPDATE entries in Empty and Accumulating. -/
theorem exec_update_phase (data : List Byte) : ∃ t, exec (updateInstr e data) s = .next t ∧ t.fault = false
    ∧ (t.ctx e).phase = if data = [] then (s.ctx e).phase else .accumulating := by
  obtain ⟨-, -, hb, -⟩ := hs.ctx e
  exact ⟨_, exec_updateInstr_run data hf hp hb, by rwa [fault_setCtx],
    by rw [ctx_setCtx, phase_updateContext data hb]⟩

/-- The COMPLETE entries in Empty and Accumulating. -/
theorem exec_complete_phase :
    ∃ t, exec (completeInstr e) s = .next t ∧ t.fault = false ∧ (t.ctx e).phase = .finalized := by
  obtain ⟨-, -, hb, -⟩ := hs.ctx e
  exact ⟨_, exec_completeInstr_run hf hp hb, by rwa [fault_emit, fault_setCtx],
    by rw [ctx_emit, ctx_setCtx, phase_completeContext]⟩

end

end

/-- Settles O41: the table row by row, an entry by the lemma of its kind. -/
theorem phaseTransitions : Obligations.PhaseTransitions := by
  refine fun e s hs hf => ⟨fun v hv => ?_, fun hp => ?_, fun hp => ?_, fun hp => ?_, fun hp => ?_⟩
  · subst hv
    exact ⟨_, exec_initInstr_run v hf, by rw [ctx_setCtx]; rfl, by rwa [fault_setCtx]⟩
  · have hl := legality_uninit hf hp
    exact ⟨fun data => exec_raise_phase (lifecycleEngine_updateInstr e data) hl hp,
      exec_raise_phase (lifecycleEngine_completeInstr e) hl hp⟩
  · have hupdate := exec_update_phase hs hf (.inl hp)
    refine ⟨?_, fun data hne => ?_, exec_complete_phase hs hf (.inl hp)⟩
    · simpa only [if_true, hp] using hupdate []
    · simpa only [hne, if_false] using hupdate data
  · refine ⟨fun data => ?_, exec_complete_phase hs hf (.inr hp)⟩
    simpa only [hp, ite_self] using exec_update_phase hs hf (.inr hp) data
  · have hl := legality_finalized hf hp
    exact ⟨fun data => exec_raise_phase (lifecycleEngine_updateInstr e data) hl hp,
      exec_raise_phase (lifecycleEngine_completeInstr e) hl hp⟩

end Sys2Proof.Machine

/-! PROOFS. The six INIT commands with the digests of their variants, and that UPDATE does not read VARIANT (42_streaming
R182, R200, R202; 43_facades R220 to R229; O20 to O25, O32). -/

namespace Sys2Proof.Machine

/-! ### The digest as whole words of H (R200, R202, R228) -/

/-- The big-endian rendering of a number is that of its high part followed by that of its low part (R15). -/
theorem beBytes_add (m k v : Nat) : beBytes (m + k) v = beBytes m (v / 256 ^ k) ++ beBytes k v := by
  induction k generalizing v with
  | zero => simp [beBytes]
  | succ k ih =>
    rw [← Nat.add_assoc, beBytes_succ, beBytes_succ, ih, List.append_assoc, Nat.div_div_eq_div_mul, ← Nat.pow_succ']

/-- The leading bytes of the serialised state: k words, then the first r bytes of the words behind them. -/
theorem take_serialize {e : Eng} (h : Vector (Word e) 8) {k : Nat} (hk : k ≤ 8) (r : Nat) :
    (serialize h).take (k * wordBytes e + r) =
      (h.toList.take k).flatMap (fun x => beBytes (wordBytes e) x.toNat)
        ++ ((h.toList.drop k).flatMap fun x => beBytes (wordBytes e) x.toNat).take r := by
  have hlen : ((h.toList.take k).flatMap fun x => beBytes (wordBytes e) x.toNat).length = k * wordBytes e := by
    rw [List.length_flatMap, List.map_congr_left fun x _ => length_beBytes _ _, List.map_const', List.sum_replicate,
      List.length_take, Vector.length_toList, Nat.min_eq_left hk, smul_eq_mul]
  have hsplit : serialize h = (h.toList.take k).flatMap (fun x => beBytes (wordBytes e) x.toNat)
      ++ (h.toList.drop k).flatMap (fun x => beBytes (wordBytes e) x.toNat) := by
    rw [serialize, ← List.flatMap_append, List.take_append_drop]
  rw [hsplit, ← hlen, List.take_length_add_append]

/-- A digest of k whole words is the first k words of H (R202). -/
theorem digestOf_of_words {e : Eng} {c : Context e} {k : Nat} (hk : k ≤ 8)
    (hd : digestSize c.variant = k * wordBytes e) :
    digestOf c = (c.h.toList.take k).flatMap fun x => beBytes (wordBytes e) x.toNat := by
  rw [digestOf, hd, ← Nat.add_zero (k * wordBytes e), take_serialize c.h hk, List.take_zero, List.append_nil]

/-- A digest of eight words is the whole of H (R202). -/
theorem digestOf_of_eight_words {e : Eng} {c : Context e} (hd : digestSize c.variant = 8 * wordBytes e) :
    digestOf c = c.h.toList.flatMap fun x => beBytes (wordBytes e) x.toNat := by
  rw [digestOf_of_words (Nat.le_refl 8) hd, List.take_of_length_le (by simp)]

/-- The digest of SHA-512/224 ends inside a word: three words of H, then the high half of `H[3]` (R226). -/
theorem digestOf_sha512_224 {c : Context .e64} (hv : c.variant = .sha512_224) :
    digestOf c = ((c.h.toList.take 3).flatMap fun x => beBytes 8 x.toNat) ++ beBytes 4 (c.h[3].toNat / 2 ^ 32) := by
  have hhalf : (beBytes 8 c.h[3].toNat).take 4 = beBytes 4 (c.h[3].toNat / 2 ^ 32) := by
    rw [beBytes_add 4 4, List.take_left' (length_beBytes ..), show 256 ^ 4 = 2 ^ 32 by decide]
  have hdrop : c.h.toList.drop 3 = c.h[3] :: c.h.toList.drop 4 := List.drop_eq_getElem_cons (by simp)
  rw [digestOf, hv, ← hhalf]
  refine (take_serialize c.h (by decide : 3 ≤ 8) 4).trans (congrArg _ ?_)
  rw [hdrop, List.flatMap_cons, List.take_append_of_le_length (by simp [wordBytes])]
  rfl

/-! ### INIT (R182) and the hash of a literal message from reset (R230) -/

/-- The whole next state of an INIT: the row, BUF with no listed cell, lengths 0, the variant latched, Empty; no other field
is written (R182). -/
theorem exec_initInstr_eq (v : Variant) {s : State} (hs : s.Inv) (hf : s.fault = false) :
    exec (initInstr v) s = .next (s.setCtx v.eng { s.ctx v.eng with
      h := ivRow v, buf := [], bufLen := 0, totLen := 0, variant := v, phase := .empty }) := by
  rw [exec_initInstr_run v hf, ← buf_initContext (hs.ctx v.eng)]
  rfl

/-- HASH is the run of one UPDATE (R208, R230). -/
theorem hashCommands_eq_hashRun (v : Variant) (msg : List Byte) : hashCommands v msg = hashRun v [msg] := rfl

/-- INIT, UPDATE and COMPLETE from reset put the reference digest on DOUT. -/
theorem runCommands_hashCommands_reset {v : Variant} {msg digest : List Byte} (h : refDigest v msg = digest) :
    ∃ t, runCommands (hashCommands v msg) State.reset = .next t ∧ t.dout = digest := by
  obtain ⟨hreset, -⟩ := resetMeetsInvariant
  obtain ⟨t, hrun, hdout, -⟩ := hashRunGivesReferenceDigest v [msg] State.reset hreset rfl rfl
  rw [List.flatten_singleton, h] at hdout
  exact ⟨t, by rw [hashCommands_eq_hashRun, hrun], hdout⟩

/-- Settles O20: INIT by the general equation, the digest as seven words, the example by evaluating the reference hash. -/
theorem initSha224Effect : Obligations.InitSha224Effect :=
  ⟨rfl, rfl, decodeHeader_headerByte (.init .sha224), rfl, rfl, Memory.read_nil,
    fun c hv => digestOf_of_words (k := 7) (by decide) (by rw [hv]; rfl),
    fun _ hs hf => exec_initInstr_eq .sha224 hs hf,
    runCommands_hashCommands_reset (by decide +kernel)⟩

/-- Settles O21: as O20, the digest being the whole of H. -/
theorem initSha256Effect : Obligations.InitSha256Effect :=
  ⟨rfl, rfl, decodeHeader_headerByte (.init .sha256), rfl, rfl, Memory.read_nil,
    fun c hv => digestOf_of_eight_words (by rw [hv]; rfl),
    fun _ hs hf => exec_initInstr_eq .sha256 hs hf,
    runCommands_hashCommands_reset (by decide +kernel)⟩

/-- Settles O22: as O20 on E64, the digest as six words. -/
theorem initSha384Effect : Obligations.InitSha384Effect :=
  ⟨rfl, rfl, decodeHeader_headerByte (.init .sha384), rfl, rfl, Memory.read_nil,
    fun c hv => digestOf_of_words (k := 6) (by decide) (by rw [hv]; rfl),
    fun _ hs hf => exec_initInstr_eq .sha384 hs hf,
    runCommands_hashCommands_reset (by decide +kernel)⟩

/-- Settles O23: as O20 on E64, the digest being the whole of H. -/
theorem initSha512Effect : Obligations.InitSha512Effect :=
  ⟨rfl, rfl, decodeHeader_headerByte (.init .sha512), rfl, rfl, Memory.read_nil,
    fun c hv => digestOf_of_eight_words (by rw [hv]; rfl),
    fun _ hs hf => exec_initInstr_eq .sha512 hs hf,
    runCommands_hashCommands_reset (by decide +kernel)⟩

/-- Settles O24: as O20 on E64, the digest cut inside `H[3]`. -/
theorem initSha512t224Effect : Obligations.InitSha512t224Effect :=
  ⟨rfl, rfl, decodeHeader_headerByte (.init .sha512_224), rfl, rfl, Memory.read_nil,
    fun _ => digestOf_sha512_224,
    fun _ hs hf => exec_initInstr_eq .sha512_224 hs hf,
    runCommands_hashCommands_reset (by decide +kernel)⟩

/-- Settles O25: as O20 on E64, the digest as four words. -/
theorem initSha512t256Effect : Obligations.InitSha512t256Effect :=
  ⟨rfl, rfl, decodeHeader_headerByte (.init .sha512_256), rfl, rfl, Memory.read_nil,
    fun c hv => digestOf_of_words (k := 4) (by decide) (by rw [hv]; rfl),
    fun _ hs hf => exec_initInstr_eq .sha512_256 hs hf,
    runCommands_hashCommands_reset (by decide +kernel)⟩

/-! ### UPDATE does not read VARIANT (R229) -/

section
variable {e : Eng} (v : Variant)

/-- Latching a variant before a TRANSFORM or after it is the same. -/
theorem transform_latch (src : List Byte) (base n : Nat) (c : Context e) :
    transform src base n { c with variant := v } = { transform src base n c with variant := v } := by
  induction n generalizing base c with
  | zero => rfl
  | succ n ih => exact ih (base + blockSize e) (transformBlock src base c)

/-- UPDATE when the buffer fills: both TRANSFORMs let the latched variant through. -/
theorem absorbData_latch (data : List Byte) (c : Context e) :
    absorbData data { c with variant := v } = { absorbData data c with variant := v } := by
  have hcopy : copyInBuf data { c with variant := v } = copyInBuf data c := rfl
  have hfirst (src : List Byte) (buf : Memory) : transform src 0 1 { c with variant := v, buf := buf }
      = { transform src 0 1 { c with buf := buf } with variant := v } := transform_latch v src 0 1 { c with buf := buf }
  simp only [absorbData, hcopy, hfirst, transform_latch]

theorem updateContext_latch (data : List Byte) (c : Context e) :
    updateContext data { c with variant := v } = { updateContext data c with variant := v } := by
  unfold updateContext
  split
  · rw [absorbData_latch]; rfl
  · rfl

theorem setCtx_setCtx (s : State) (c d : Context e) : (s.setCtx e c).setCtx e d = s.setCtx e d := by cases e <;> rfl

theorem raiseFault_setCtx (s : State) (c : Context e) (cause : Cause) :
    (s.setCtx e c).raiseFault cause = (s.raiseFault cause).setCtx e c := by cases e <;> rfl

end

/-- Settles O32: the check an UPDATE passes does not look at VARIANT, and what it writes goes with any variant. -/
theorem updateIgnoresVariant : Obligations.UpdateIgnoresVariant := by
  intro e data v s t h
  have hcheck : legality (some e) (s.setCtx e { s.ctx e with variant := v }) = legality (some e) s :=
    legality_congr (fault_setCtx ..) fun e' he => by cases he; rw [ctx_setCtx]
  have hraise : ∀ c, legality (some e) s = .raise c →
      exec (updateInstr e data) (s.setCtx e { s.ctx e with variant := v })
        = .next ((s.raiseFault c).setCtx e { (s.raiseFault c).ctx e with variant := v }) := fun c hl => by
    rw [exec_raise (by rw [lifecycleEngine_updateInstr, hcheck, hl]), raiseFault_setCtx, ctx_raiseFault]
  rw [exec_updateInstr] at h
  rcases updateCommand_next h with ⟨hf, rfl⟩ | ⟨hf, hp, rfl⟩ | ⟨hf, hp, rfl⟩ | ⟨hf, hp, hb, rfl⟩
  · exact exec_faulted (by rwa [fault_setCtx]) _
  · exact hraise _ (legality_uninit hf hp)
  · exact hraise _ (legality_finalized hf hp)
  · rw [exec_updateInstr_run data (by rwa [fault_setCtx]) (by rwa [ctx_setCtx]) (by rwa [ctx_setCtx]), ctx_setCtx,
      updateContext_latch, updateRun_eq_setCtx, ctx_setCtx, setCtx_setCtx, setCtx_setCtx]

end Sys2Proof.Machine

/-! PROOFS. What raises a fault, what a raised fault changes, and the faulted and the idle CORE (60_exceptions R240 to
R250, 70_reset R272; O7, O8, O9, O11, O12, O13, O14). -/

namespace Sys2Proof.Machine

/-! ### The headers whose command the legality check can stop (R241, R243) -/

/-- The header byte of a command whose check looks at the PHASE of engine e: UPDATE or COMPLETE. -/
abbrev ChecksPhaseOf (e : Eng) (b : Byte) : Prop := b = headerByte (.update e) ∨ b = headerByte (.complete e)

theorem ChecksPhaseOf.decodeHeader {e : Eng} {b : Byte} (h : ChecksPhaseOf e b) :
    decodeHeader b = some (.update e) ∨ decodeHeader b = some (.complete e) := by
  rcases h with rfl | rfl
  · exact .inl (decodeHeader_headerByte _)
  · exact .inr (decodeHeader_headerByte _)

/-- The operands of an UPDATE have come or they have not; nothing else is made of them (R98, R107). -/
theorem decodeUpdate_cases (e : Eng) (bytes : List Byte) :
    decodeUpdate e bytes = .fragment e ∨ ∃ data rest, decodeUpdate e bytes = .command (updateInstr e data) rest := by
  simp only [decodeUpdate]
  split
  · exact .inl rfl
  · split
    · exact .inl rfl
    · exact .inr ⟨_, _, rfl⟩

/-- After such a header stands the beginning of an UPDATE, or a command whose check looks at that engine. -/
theorem ChecksPhaseOf.decode {e : Eng} {b : Byte} (h : ChecksPhaseOf e b) (bytes : List Byte) :
    decode (b :: bytes) = .fragment e
    ∨ ∃ i rest, decode (b :: bytes) = .command i rest ∧ lifecycleEngine i = some e := by
  rcases h with rfl | rfl
  · rw [decode_update]
    exact (decodeUpdate_cases e bytes).imp_right fun ⟨data, rest, hd⟩ =>
      ⟨_, rest, hd, lifecycleEngine_updateInstr e data⟩
  · exact .inr ⟨_, bytes, decode_complete e bytes, lifecycleEngine_completeInstr e⟩

/-- A fragment begins with the header of an UPDATE. -/
theorem decode_fragment {bytes : List Byte} {e : Eng} (h : decode bytes = .fragment e) :
    ∃ tail, bytes = headerByte (.update e) :: tail := by
  cases bytes with
  | nil => cases h
  | cons b bytes =>
    cases hd : decodeHeader b with
    | none => rw [decode_of_decodeHeader_none hd] at h; cases h
    | some header =>
      obtain rfl := headerByte_of_decodeHeader b header hd
      cases header with
      | init v => rw [decode_init] at h; cases h
      | complete e' => rw [decode_complete] at h; cases h
      | update e' =>
        rw [decode_update] at h
        rcases decodeUpdate_cases e' bytes with hu | ⟨data, rest, hu⟩
        · rw [hu] at h; cases h; exact ⟨bytes, rfl⟩
        · rw [hu] at h; cases h

/-- A command whose check looks at an engine has the header of an UPDATE or a COMPLETE of that engine. -/
theorem decode_command_checksPhase {bytes : List Byte} {i : Instr} {rest : List Byte} {e : Eng}
    (h : decode bytes = .command i rest) (hi : lifecycleEngine i = some e) :
    ∃ b tail, bytes = b :: tail ∧ ChecksPhaseOf e b := by
  rcases decode_command h with ⟨v, rfl, -⟩ | ⟨e', lenField, data, -, -, rfl, rfl⟩ | ⟨e', rfl, rfl⟩
  · simp at hi
  · obtain rfl : e' = e := by simpa using hi
    exact ⟨_, _, rfl, .inl rfl⟩
  · obtain rfl : e' = e := by simpa using hi
    exact ⟨_, _, rfl, .inr rfl⟩

/-! ### Raising a fault (R240, R246) -/

theorem legality_consume (target : Option Eng) (s : State) (i : Instr) (rest : List Byte) :
    legality target (s.consume i rest) = legality target s :=
  legality_congr (fault_consume ..) fun e _ => by rw [ctx_consume]

/-- A step on the header of a command that the check stops raises the fault, whatever follows the header (R241). -/
theorem step_raise {s : State} {e : Eng} {c : Cause} {b : Byte} {bytes : List Byte} (hu : s.untaken = 0)
    (hb : ChecksPhaseOf e b) (hcin : s.cin = b :: bytes) (hl : legality (some e) s = .raise c) :
    step s = .next (s.afterHeader.raiseFault c) := by
  obtain ⟨hf, -⟩ := legality_raise hl
  rcases hb.decode bytes with hd | ⟨i, rest, hd, hi⟩
  · exact step_fragment_raise hf hu (by rw [hcin, hd]) hl
  · rw [← hi] at hl
    rw [step_command hf hu (by rw [hcin, hd]), exec_raise (by rw [legality_consume, hl]), consume_of_raise hl,
      State.afterHeader]

/-- Everything exec can do that raises a fault. -/
theorem exec_raises {i : Instr} {s t : State} (hf : s.fault = false) (h : exec i s = .next t) (ht : t.fault = true) :
    ∃ c, legality (lifecycleEngine i) s = .raise c ∧ t = s.raiseFault c := by
  rcases exec_next_cases h with ⟨hs, -⟩ | hraise | ⟨-, v, -, rfl⟩ | ⟨-, e, data, -, -, -, rfl⟩ | ⟨-, e, -, -, -, rfl⟩
  · rw [hf] at hs; cases hs
  · exact hraise
  · rw [fault_setCtx, hf] at ht; cases ht
  · rw [fault_setCtx, hf] at ht; cases ht
  · rw [fault_emit, fault_setCtx, hf] at ht; cases ht

/-- Everything a step can do that raises a fault: it consumes a header byte, which is illegal or belongs to a command
that the check stops. -/
theorem step_raises {s t : State} (hf : s.fault = false) (h : step s = .next t) (ht : t.fault = true) :
    ∃ b bytes c, s.cin = b :: bytes ∧ t = s.afterHeader.raiseFault c ∧
      (c = .illegalCommand ∧ decodeHeader b = none
        ∨ ∃ e, ChecksPhaseOf e b ∧ legality (some e) s = .raise c) := by
  rcases step_next h with ⟨hs, -⟩ | ⟨-, -, ⟨-, rfl⟩ | ⟨⟨b, hd⟩, rfl⟩ | ⟨e, c, hd, hl, rfl⟩ | ⟨i, rest, hd, hexec⟩⟩
  · rw [hf] at hs; cases hs
  · rw [hf] at ht; cases ht
  · obtain ⟨hb, bytes, hcin⟩ := decode_illegal hd
    exact ⟨b, bytes, _, hcin, rfl, .inl ⟨rfl, hb⟩⟩
  · obtain ⟨bytes, hcin⟩ := decode_fragment hd
    exact ⟨_, bytes, c, hcin, rfl, .inr ⟨e, .inl rfl, hl⟩⟩
  · obtain ⟨c, hl, rfl⟩ := exec_raises (by rwa [fault_consume]) hexec ht
    rw [legality_consume] at hl
    obtain ⟨-, e, he, -⟩ := legality_raise hl
    obtain ⟨b, bytes, hcin, hb⟩ := decode_command_checksPhase hd he
    exact ⟨b, bytes, c, hcin, by rw [consume_of_raise hl, State.afterHeader], .inr ⟨e, hb, he ▸ hl⟩⟩

/-- UPDATE and COMPLETE on an engine whose PHASE raises a fault: executed, and met by a step at the head of CIN. -/
theorem updateAndComplete_raise {e : Eng} {s : State} {c : Cause} (hl : legality (some e) s = .raise c) :
    (∀ data, exec (updateInstr e data) s = .next { s with fault := true, cause := c })
    ∧ exec (completeInstr e) s = .next { s with fault := true, cause := c }
    ∧ ∀ b bytes, s.untaken = 0 → ChecksPhaseOf e b → s.cin = b :: bytes →
        step s = .next { s with cin := bytes, fault := true, cause := c } := by
  refine ⟨fun data => exec_raise (by rw [lifecycleEngine_updateInstr, hl]),
    exec_raise (by rw [lifecycleEngine_completeInstr, hl]), fun b bytes hu hb hcin => ?_⟩
  rw [step_raise hu hb hcin hl, State.afterHeader, hcin]
  rfl

/-! ### Uninit lasts until an INIT executes (R241) -/

theorem Phase.active.ne_uninit {p : Phase} (h : p.active) : p ≠ .uninit := by
  rcases h with rfl | rfl <;> decide

/-- UPDATE leaves no engine in Uninit: PHASE stays, or is Accumulating. -/
theorem phase_updateContext_ne_uninit {e : Eng} (data : List Byte) {c : Context e} (hp : c.phase.active)
    (hb : c.bufLen.toNat < blockSize e) : (updateContext data c).phase ≠ .uninit := by
  rw [phase_updateContext data hb]
  split
  · exact hp.ne_uninit
  · decide

/-- A write to an engine that is not in Uninit before or after it leaves the same engines in Uninit. -/
theorem uninit_setCtx_iff {s : State} {e' : Eng} {c : Context e'} (hs : (s.ctx e').phase ≠ .uninit)
    (hc : c.phase ≠ .uninit) (e : Eng) : ((s.setCtx e' c).ctx e).phase = .uninit ↔ (s.ctx e).phase = .uninit :=
  forall_ctx_setCtx (P := fun e c => c.phase = .uninit ↔ (s.ctx e).phase = .uninit) (iff_of_false hc hs)
    (fun _ => Iff.rfl) e

theorem ne_initInstr_of_lifecycleEngine {i : Instr} {e : Eng} (h : lifecycleEngine i = some e) (v : Variant) :
    i ≠ initInstr v := by
  rintro rfl
  simp at h

/-- An INIT that executes takes its own engine out of Uninit and leaves the other one's PHASE. -/
theorem uninit_initContext_iff (v : Variant) (s : State) (e : Eng) :
    ((s.setCtx v.eng (initContext v (s.ctx v.eng))).ctx e).phase = .uninit ↔ (s.ctx e).phase = .uninit ∧ e ≠ v.eng := by
  by_cases he : e = v.eng
  · subst he
    rw [ctx_setCtx]
    exact iff_of_false (fun h => by cases h) (fun h => h.2 rfl)
  · rw [ctx_setCtx_of_ne he]
    exact (and_iff_left he).symm

/-- A command takes an engine out of Uninit exactly if it is an INIT executed on it, and puts none there. -/
theorem uninit_exec_iff {i : Instr} {s t : State} (e : Eng) (h : exec i s = .next t) :
    (t.ctx e).phase = .uninit ↔
      (s.ctx e).phase = .uninit ∧ (s.fault = false → ∀ v, v.eng = e → i ≠ initInstr v) := by
  rcases exec_next_cases h with ⟨hf, rfl⟩ | ⟨c, hl, rfl⟩ | ⟨hf, v, rfl, rfl⟩ | ⟨-, e', data, rfl, hp, hb, rfl⟩
    | ⟨-, e', rfl, hp, -, rfl⟩
  · exact (and_iff_left fun hf' => by rw [hf] at hf'; cases hf').symm
  · obtain ⟨-, e', he', -⟩ := legality_raise hl
    rw [ctx_raiseFault]
    exact (and_iff_left fun _ v _ => ne_initInstr_of_lifecycleEngine he' v).symm
  · have hother : e ≠ v.eng ↔ (s.fault = false → ∀ v', v'.eng = e → initInstr v ≠ initInstr v') := by
      refine ⟨fun he _ v' hv' heq => he ?_, fun hne he => hne hf v he.symm rfl⟩
      rw [← hv', ← addressedEngine_initInstr v', ← heq, addressedEngine_initInstr]
    rw [uninit_initContext_iff, hother]
  · rw [uninit_setCtx_iff hp.ne_uninit (phase_updateContext_ne_uninit data hp hb)]
    exact (and_iff_left fun _ v _ => ne_initInstr_of_lifecycleEngine (lifecycleEngine_updateInstr e' data) v).symm
  · rw [ctx_emit, uninit_setCtx_iff hp.ne_uninit (by rw [phase_completeContext]; decide)]
    exact (and_iff_left fun _ v _ => ne_initInstr_of_lifecycleEngine (lifecycleEngine_completeInstr e') v).symm

/-! ### The statements -/

/-- Settles O8: the check raises fault 2 in Uninit, for UPDATE and COMPLETE alike, and only an INIT ends Uninit. -/
theorem uninitRaisesNotInitialised : Obligations.UninitRaisesNotInitialised :=
  ⟨rfl, fun _ _ hf hp => updateAndComplete_raise (legality_uninit hf hp), rfl, rfl,
    fun _ _ _ e h => uninit_exec_iff e h⟩

/-- Settles O9: as O8, with the fault that the check raises in Finalized. -/
theorem finalizedRaisesReuse : Obligations.FinalizedRaisesReuse :=
  ⟨rfl, fun _ _ hf hp => updateAndComplete_raise (legality_finalized hf hp)⟩

/-- Settles O12: the step and the check look at FAULT first, and RST writes FAULT and both PHASE registers. -/
theorem faultedCoreRefuses : Obligations.FaultedCoreRefuses :=
  ⟨fun _ hf => ⟨step_faulted hf, exec_faulted hf⟩,
    fun s => ⟨fault_assertRst s, phase_assertRst s .e32, phase_assertRst s .e64⟩⟩

/-- Settles O13: a fault is raised by `raiseFault` alone, after the header byte was taken where a step raises it. -/
theorem raisedFaultIsOnlyEffect : Obligations.RaisedFaultIsOnlyEffect := by
  refine ⟨fun i s t hf h ht => ?_, fun s t hf h ht => ⟨?_, ?_, fun n => ?_, fun i u hu => ?_⟩⟩
  · obtain ⟨c, hl, rfl⟩ := exec_raises hf h ht
    obtain ⟨-, e, -, hcause⟩ := legality_raise hl
    exact ⟨rfl, hcause.imp And.right And.right⟩
  · obtain ⟨b, bytes, c, -, rfl, -⟩ := step_raises hf h ht
    rfl
  · obtain ⟨b, bytes, c, -, rfl, ⟨rfl, -⟩ | ⟨e, -, hl⟩⟩ := step_raises hf h ht
    · rw [cause_raiseFault]; decide
    · exact legality_raise_ne_none hl
  · obtain ⟨-, -, -, -, hfault, hcause, -⟩ := statusWordLayout.2 t n
    exact ⟨hfault.trans ht, hcause⟩
  · rw [exec_faulted ht] at hu
    cases hu
    rfl

/-- Settles O14: the header byte that a raising step consumed is illegal, or the check says which PHASE stopped it. -/
theorem faultCausesAreExact : Obligations.FaultCausesAreExact := by
  intro s t hf h ht
  obtain ⟨b, bytes, c, hcin, rfl, ⟨rfl, hb⟩ | ⟨e, hb, hl⟩⟩ := step_raises hf h ht
  · exact ⟨b, bytes, hcin, .inl ⟨rfl, hb⟩⟩
  · obtain ⟨-, e', he, hphase⟩ := legality_raise hl
    cases he
    rcases hphase with ⟨hp, rfl⟩ | ⟨hp, rfl⟩
    · exact ⟨b, bytes, hcin, .inr (.inl ⟨rfl, e, hb.decodeHeader, hp⟩)⟩
    · exact ⟨b, bytes, hcin, .inr (.inr ⟨rfl, e, hb.decodeHeader, hp⟩)⟩

/-- Settles O7: the decoder's verdict on that byte is illegal, whatever follows it. -/
theorem illegalHeaderRaisesCauseOne : Obligations.IllegalHeaderRaisesCauseOne := by
  refine ⟨rfl, fun s b bytes hf hu hcin hb => ?_⟩
  rw [step_illegal hf hu (by rw [hcin, decode_of_decodeHeader_none hb]), State.afterHeader, hcin]
  rfl

/-- Settles O11: a faulted CORE refuses, one without a fault is idle. -/
theorem idleKeepsState : Obligations.IdleKeepsState := by
  intro s hcin hu
  cases hf : s.fault with
  | true => exact step_faulted hf
  | false => exact step_idle hf hu hcin

end Sys2Proof.Machine

/-! PROOFS. Commands to different engines commute while neither faults (70_reset R294; O46). -/

namespace Sys2Proof.Machine

/-- A command that leaves FAULT at 0 found it at 0, and keeps CAUSE (R246, R248). -/
theorem exec_without_fault {i : Instr} {s t : State} (h : exec i s = .next t) (ht : t.fault = false) :
    t.fault = s.fault ∧ t.cause = s.cause := by
  rcases exec_next_cases h with ⟨-, rfl⟩ | ⟨c, -, rfl⟩ | ⟨-, v, -, rfl⟩ | ⟨-, e, data, -, -, -, rfl⟩
    | ⟨-, e, -, -, -, rfl⟩
  · exact ⟨rfl, rfl⟩
  · cases ht
  · exact ⟨fault_setCtx .., cause_setCtx ..⟩
  · exact ⟨fault_setCtx .., cause_setCtx ..⟩
  · simp

/-- Only a COMPLETE appends to DOUT (R33). -/
theorem dout_exec_of_ne_complete {i : Instr} {s t : State} (hi : i ≠ completeInstr (addressedEngine i))
    (h : exec i s = .next t) : t.dout = s.dout := by
  rcases dout_exec h with hsame | ⟨e, rfl, -⟩
  · exact hsame
  · rw [addressedEngine_completeInstr] at hi
    exact absurd rfl hi

/-- After a command to another engine that leaves FAULT at 0, a command still completes, with the effect it has without
that neighbour (R37, R294). -/
theorem exec_after_neighbour {i i' : Instr} {s t t' : State} (hne : addressedEngine i' ≠ addressedEngine i)
    (h : exec i s = .next t) (h' : exec i' s = .next t') (ht' : t'.fault = false) :
    ∃ u bytes, exec i t' = .next u ∧ SameEffect (addressedEngine i) s t' t u bytes := by
  obtain ⟨hfault, hcause⟩ := exec_without_fault h' ht'
  exact exec_sameEffect hfault.symm hcause.symm rfl (ctx_exec_of_ne hne h').symm h

/-- Settles O46: in either order each command has the effect it has alone, so both engines, FAULT and CAUSE agree, and
DOUT does where one of the two appends no byte. -/
theorem enginesCommute : Obligations.EnginesCommute := by
  intro i i' s t t' hother h ht h' ht'
  have hne : addressedEngine i' ≠ addressedEngine i := by rw [hother]; exact otherEng_ne _
  obtain ⟨u', bytes, hu', hown, -, -, hfault, hcause, hd, hdu'⟩ := exec_after_neighbour hne h h' ht'
  obtain ⟨u, bytes', hu, hown', -, -, hfault', hcause', hd', hdu⟩ := exec_after_neighbour hne.symm h' h ht
  refine ⟨u, u', hu, hu', fun e => ?_, ?_, ?_, ?_, fun hcomplete => ?_⟩
  · by_cases he : e = addressedEngine i
    · subst he
      rw [hown, ctx_exec_of_ne hne hu]
    · obtain rfl : e = addressedEngine i' := (eq_otherEng_of_ne he).trans hother.symm
      rw [hown', ctx_exec_of_ne hne.symm hu']
  · rw [hfault', hfault, ht, ht']
  · rw [hcause', hcause, (exec_without_fault h ht).2, (exec_without_fault h' ht').2]
  · rw [cin_exec hu, cin_exec h, cin_exec hu', cin_exec h']
  · rcases hcomplete with hi | hi'
    · rw [dout_exec_of_ne_complete hi hu', hdu, dout_exec_of_ne_complete hi h, hd']
    · rw [dout_exec_of_ne_complete hi' hu, hdu', dout_exec_of_ne_complete hi' h', hd]

end Sys2Proof.Machine
